-- ==== Sys2Proof/Word.lean ====
section
/-! DEFINITION. The 32-bit word: registers, memory cells, the program counter and the ports
(spec/00_scope.md R6, R8). -/

namespace Sys2Proof

/-- A 32-bit pattern. `+` and `-` on it are modulo 2^32, `==` compares it bit for bit,
`BitVec.toInt` is the spec's `signed` and `BitVec.toNat` its `unsigned` (R8). -/
abbrev Word := BitVec 32

end Sys2Proof
end

