-- ==== Sys2Proof/Config.lean ====
section
/-! DEFINITION. The implementation parameters of spec/00_scope.md R6. They are constants: the spec
says that a model takes them so, and it leaves no value free (spec/93_implementation_defined.md:
"Nothing in the CORE is unpredictable"). -/

namespace Sys2Proof.Config

/-- `MEMORY_SIZE`: the number of cells, at addresses 0 to 255 (R6, R34). -/
abbrev memorySize : Nat := 256

/-- The largest value that IN accepts; the smallest is 0 (R6, R207). -/
abbrev inputMax : Nat := 255

/-- The opcode of the halt sentinel (R6, R88). -/
abbrev haltOpcode : BitVec 8 := 0x0F

/-- The reset value of the program counter, which is the program's load origin (R6, R251, R252). -/
abbrev resetPc : Word := 0

/-- What a cell that is not listed in a `Memory` reads as: every cell resets to 0 (R34, R251). -/
abbrev unlistedCell : Word := 0#32

end Sys2Proof.Config
end

