-- ==== Sys2Proof/Syntax.lean ====
section
/-! DEFINITION. The instructions: one constructor per row of spec/opcode_table.json
(spec/30_encoding.md R82, R86, R92). -/

namespace Sys2Proof

/-- The index of one of the eight general registers. A 3-bit field spells no other number (R20). -/
abbrev Reg := Fin 8

/-- The fifteen instructions, each with the operands that R82 and R92 give it. A field that the
instruction ignores has no operand here, but for CMP, whose two fields R92 lets the assembler
write. -/
inductive Instr where
  /-- `LOAD Rd, [Ra]` (R150) -/
  | load (rd ra : Reg)
  /-- `STORE Rs, [Ra]` (R152) -/
  | store (rs ra : Reg)
  /-- `ADD Rd, Rs1, Rs2` (R130) -/
  | add (rd rs1 rs2 : Reg)
  /-- `SUB Rd, Rs1, Rs2` (R132) -/
  | sub (rd rs1 rs2 : Reg)
  /-- `MOV Rd, Rs` (R134) -/
  | mov (rd rs : Reg)
  /-- `CMP Ra, Rb`; nothing reads the two registers (R140) -/
  | cmp (ra rb : Reg)
  /-- `JMP`; its target is the inline operand word, the cell after it (R172) -/
  | jmp
  /-- `CALL Rt` (R180) -/
  | call (rt : Reg)
  /-- `RET`; its target is the inline operand word (R184) -/
  | ret
  /-- `BEQ Rr, #k`; its target is the inline operand word (R176) -/
  | beq (r : Reg) (k : Nat)
  /-- `INT` (R203) -/
  | int
  /-- `LDI Rd, #imm`, where `imm` is the 16-bit pattern of the literal (R92, R137) -/
  | ldi (rd : Reg) (imm : Nat)
  /-- `OUT Rs` (R209) -/
  | out (rs : Reg)
  /-- `IN Rd` (R207); named `inp` because `in` is a keyword of Lean -/
  | inp (rd : Reg)
  /-- `HALT` (R200) -/
  | halt
  deriving DecidableEq, Repr

end Sys2Proof
end

