-- ==== Sys2Proof/WellFormed.lean ====
section
/-! DEFINITION. Which instructions have an encoding: no operand exceeds its field
(spec/30_encoding.md R84, R92). -/

namespace Sys2Proof

/-- The literal operands fit their fields: BEQ's in 3 bits, LDI's pattern in 16 (R84, R92). A
register operand fits by its type. -/
def Instr.wf : Instr → Bool
  | .load _ _ => true
  | .store _ _ => true
  | .add _ _ _ => true
  | .sub _ _ _ => true
  | .mov _ _ => true
  | .cmp _ _ => true
  | .jmp => true
  | .call _ => true
  | .ret => true
  | .beq _ k => decide (k ≤ 7)
  | .int => true
  | .ldi _ imm => decide (imm ≤ 0xFFFF)
  | .out _ => true
  | .inp _ => true
  | .halt => true

/-- The instruction has an encoding. -/
abbrev WellFormed (i : Instr) : Prop := i.wf = true

end Sys2Proof
end

