-- ==== Sys2Proof/Decode.lean ====
section
/-! DEFINITION. The E30 encoding: the decoder (`instruction_decoder`, spec/10_state.md R38), total on
every 32-bit cell, and the encoder (spec/30_encoding.md R80 to R90). -/

namespace Sys2Proof

/-! ### Fields -/

/-- The fields of an E30 word (R80). `r3` lies inside `imm`; bits 31:30 are in no field (R81). -/
structure Fields where
  op  : BitVec 8
  r1  : BitVec 3
  r2  : BitVec 3
  imm : BitVec 16
  deriving DecidableEq, Repr

/-- Cut a word into its fields by fixed positions: `op = w[29:22]`, `r1 = w[21:19]`,
`r2 = w[18:16]`, `imm = w[15:0]` (R80, R85, R115). It never fails. -/
def fieldsOf (w : Word) : Fields where
  op  := w.extractLsb' 22 8
  r1  := w.extractLsb' 19 3
  r2  := w.extractLsb' 16 3
  imm := w.extractLsb' 0 16

/-- The third register field of ADD and SUB, `imm[2:0]` (R80). -/
def Fields.r3 (f : Fields) : BitVec 3 := f.imm.extractLsb' 0 3

/-- The register that a 3-bit field names, the field read as an unsigned index (R83). -/
def regOf (f : BitVec 3) : Reg := f.toFin

/-- `is_halt`: the opcode field alone decides, whatever the other 24 bits hold (R38, R88). -/
def Fields.isHalt (f : Fields) : Bool := f.op == Config.haltOpcode

/-! ### Decoder -/

/-- Why a word stands for no instruction. The decoder names the opcode; the dispatch of the cycle
turns this into UNKNOWN_OPCODE (R89, R116). -/
inductive DecodeError where
  | undefinedOpcode (op : BitVec 8)
  deriving DecidableEq, Repr

/-- The opcode map of R86, with the fields of R82. 0x0C and 0x10 to 0xFF stand for no instruction
(R89). -/
def decodeFields (f : Fields) : Except DecodeError Instr :=
  match f.op.toNat with
  | 0x00 => .ok (.load (regOf f.r1) (regOf f.r2))
  | 0x01 => .ok (.store (regOf f.r1) (regOf f.r2))
  | 0x02 => .ok (.add (regOf f.r1) (regOf f.r2) (regOf f.r3))
  | 0x03 => .ok (.sub (regOf f.r1) (regOf f.r2) (regOf f.r3))
  | 0x04 => .ok (.mov (regOf f.r1) (regOf f.r2))
  | 0x05 => .ok (.cmp (regOf f.r1) (regOf f.r2))
  | 0x06 => .ok .jmp
  | 0x07 => .ok (.call (regOf f.r1))
  | 0x08 => .ok .ret
  | 0x09 => .ok (.beq (regOf f.r1) f.r2.toNat)
  | 0x0A => .ok .int
  | 0x0B => .ok (.ldi (regOf f.r1) f.imm.toNat)
  | 0x0D => .ok (.out (regOf f.r1))
  | 0x0E => .ok (.inp (regOf f.r1))
  | 0x0F => .ok .halt
  | _ => .error (.undefinedOpcode f.op)

/-- The instruction a cell holds. Every instruction is exactly one cell, and no mode changes the
decoding (R90). -/
def decode (w : Word) : Except DecodeError Instr := decodeFields (fieldsOf w)

/-- `is_defined`: the opcode is one of the 14 executable ones, HALT's left out (R38). -/
def Fields.isDefined (f : Fields) : Bool :=
  !f.isHalt && (decodeFields f).isOk

/-! ### Encoder -/

/-- `EncodingError`: the field that exceeds its width. It belongs to the host's side; the CORE
never raises it (R84, R223). -/
inductive EncodingError where
  | opcode
  | reg1
  | reg2
  | immediate
  deriving DecidableEq, Repr

/-- `zext_32({op[7:0], r1[2:0], r2[2:0], imm[15:0]})` (R84). -/
def packWord (op r1 r2 imm : Nat) : Word :=
  ((BitVec.ofNat 8 op ++ BitVec.ofNat 3 r1) ++
    (BitVec.ofNat 3 r2 ++ BitVec.ofNat 16 imm)).setWidth 32

/-- `encode(op, r1, r2, imm)`: fails when a field exceeds its width (R84). -/
def encodeFields (op r1 r2 imm : Nat) : Except EncodingError Word :=
  if op > 255 then .error .opcode
  else if r1 > 7 then .error .reg1
  else if r2 > 7 then .error .reg2
  else if imm > 0xFFFF then .error .immediate
  else .ok (packWord op r1 r2 imm)

/-- The canonical word of an instruction: R92's call of `encode`, every ignored field zero (R84). -/
def encode : Instr → Except EncodingError Word
  | .load rd ra => encodeFields 0x00 rd ra 0
  | .store rs ra => encodeFields 0x01 rs ra 0
  | .add rd rs1 rs2 => encodeFields 0x02 rd rs1 rs2
  | .sub rd rs1 rs2 => encodeFields 0x03 rd rs1 rs2
  | .mov rd rs => encodeFields 0x04 rd rs 0
  | .cmp ra rb => encodeFields 0x05 ra rb 0
  | .jmp => encodeFields 0x06 0 0 0
  | .call rt => encodeFields 0x07 rt 0 0
  | .ret => encodeFields 0x08 0 0 0
  | .beq r k => encodeFields 0x09 r k 0
  | .int => encodeFields 0x0A 0 0 0
  | .ldi rd imm => encodeFields 0x0B rd 0 imm
  | .out rs => encodeFields 0x0D rs 0 0
  | .inp rd => encodeFields 0x0E rd 0 0
  | .halt => encodeFields 0x0F 0 0 0

/-! ### Words as spec/opcode_table.json numbers them -/

/-- The cell whose low `nbits` bits are those of `w` and whose other bits are 0. -/
def tableCell (nbits w : Nat) : Word := BitVec.ofNat 32 (w % 2 ^ nbits)

/-- The instruction the decoder reads from a row's word; an instruction is one cell (R90). -/
def decodeTableWord (nbits w : Nat) : Option Instr :=
  match decode (tableCell nbits w) with
  | .ok i => some i
  | .error _ => none

end Sys2Proof
end

