-- ==== Sys2Proof/Machine/State.lean ====
section
/-! DEFINITION. The state of the CORE (spec/10_state.md R20 to R35), the host's side that a step
reads, the reset state (spec/70_reset_and_hazards.md R251), and the reasons a step can stop. -/

namespace Sys2Proof.Machine

/-- `halt_fsm`'s state (R30). -/
inductive RunState where
  | idle
  | running
  | halted
  | faulted
  deriving DecidableEq, Repr

/-- The fault cause (R31). -/
inductive Cause where
  | none
  | pcOutOfRange
  | unknownOpcode
  | addressOutOfRange
  | interruptSignal
  deriving DecidableEq, Repr

/-- One turn of the host: what its reset, load and run signals do at one step (R44, R253). A turn
that is not `quiet` is the host's move; on a `quiet` turn the CORE makes its own. -/
inductive HostTurn where
  /-- `reset` (R250) -/
  | reset
  /-- `load_valid` with `load_addr` and `load_data` (R255) -/
  | load (addr data : Word)
  /-- `start` (R256) -/
  | start
  /-- the host drives none of these signals -/
  | quiet
  deriving DecidableEq, Repr

/-- The memory array (R34, R60): the cells that do not hold `Config.unlistedCell`, each as its cell
address and its whole 32-bit contents, addresses strictly rising (`Memory.wf`). Memory is addressed
by cell and no access sees part of one (R62, R63), so the pair's second part is a cell, not a
byte. -/
abbrev Memory := List (Nat × Word)

/-- The state of the machine. The first eight fields are the spec's architectural state (R20 to
R34); `inReq` and `outValid` are the handshake outputs that R251 gives reset values; `outputs` is
the record of R210; the last two are the model's own: what the host will do (log entries 2 and 3). -/
structure State where
  /-- `x[0]` to `x[7]` (R20) -/
  regs       : Vector Word 8
  /-- the program counter (R24) -/
  pc         : Word
  /-- the state of `halt_fsm` (R30) -/
  state      : RunState
  /-- the fault cause (R31) -/
  cause      : Cause
  /-- the instruction counter (R29) -/
  icount     : BitVec 64
  /-- the memory array (R34) -/
  mem        : Memory
  /-- the last value IN accepted (R33) -/
  inPort     : Word
  /-- the last value OUT published (R33) -/
  outPort    : Word
  /-- `in_req`: an IN waits for a value (R44, R207) -/
  inReq      : Bool
  /-- `out_valid`: the last step of the CORE published `out_data` (R44, R209) -/
  outValid   : Bool
  /-- the values OUT has published since reset, oldest first (R210) -/
  outputs    : List Word
  /-- the values the host will put on `in_data`, first one first; one is offered each time an IN
  waits, and an empty list is a silent host (R207, R208) -/
  hostOffers : List Word
  /-- the host's turns to come, one a step; an empty list is a quiet host (R44, R253) -/
  hostTurns  : List HostTurn
  deriving DecidableEq, Repr

/-- Faults that stop the model. There are none: every fault of the CORE is a next state, in which
`state` is FAULTED and `cause` names it (R221), and no rule makes a step undefined
(spec/93_implementation_defined.md, end of section 2). -/
inductive Fault where
  deriving DecidableEq, Repr

/-- Refusals of the model. -/
inductive Refusal where
  /-- raised by an arm of `exec` whose instruction has no meaning yet: no arm is left. Safe: nothing
  is claimed of such a step. -/
  | notModelled (mnemonic : String)
  deriving DecidableEq, Repr

/-- The state after reset: R251's table; the three lists are empty (log entries 2, 3 and 4). -/
def State.reset : State where
  regs       := Vector.replicate 8 0
  pc         := Config.resetPc
  state      := .idle
  cause      := .none
  icount     := 0
  mem        := []
  inPort     := 0
  outPort    := 0
  inReq      := false
  outValid   := false
  outputs    := []
  hostOffers := []
  hostTurns  := []

end Sys2Proof.Machine
end

