-- ==== Sys2Proof/Machine/Ops.lean ====
section
/-! DEFINITION. The named operations that the meanings share: registers, memory, the alu, the ports,
and the ways a step ends (retire, halt, fault, wait). -/

namespace Sys2Proof.Machine

/-! ### Ranges -/

/-- `0 <= signed(a) <= 255`, the test of every access and of the fetch (R65, R112). -/
def inRange (a : Word) : Bool :=
  decide (0 ≤ a.toInt) && decide (a.toInt < Config.memorySize)

/-- `0 <= signed(v) <= 255`, the test of an offered input value (R207). -/
def inputOk (v : Word) : Bool :=
  decide (0 ≤ v.toInt) && decide (v.toInt ≤ Config.inputMax)

/-! ### Memory -/

/-- The contents of cell `a` (R9 `M[a]`, R69). -/
def Memory.read : Memory → Nat → Word
  | [], _ => Config.unlistedCell
  | (b, w) :: m, a => if a = b then w else Memory.read m a

/-- Write one whole cell (R9 `MemWrite`, R63). The value an unlisted cell reads as is not listed. -/
def Memory.write : Memory → Nat → Word → Memory
  | [], a, v => if v = Config.unlistedCell then [] else [(a, v)]
  | (b, w) :: m, a, v =>
    if a < b then
      if v = Config.unlistedCell then (b, w) :: m else (a, v) :: (b, w) :: m
    else if a = b then
      if v = Config.unlistedCell then m else (a, v) :: m
    else (b, w) :: Memory.write m a v

/-- The canonical form from address `lo` on: addresses rising and below `MEMORY_SIZE`, no listed
cell equal to what an unlisted one reads as. -/
def Memory.wfFrom : Nat → Memory → Bool
  | _, [] => true
  | lo, (b, w) :: m =>
    decide (lo ≤ b) && decide (b < Config.memorySize) && (w != Config.unlistedCell) &&
      Memory.wfFrom (b + 1) m

/-- The canonical form of a memory: equal memories are equal lists. -/
def Memory.wf (m : Memory) : Bool := Memory.wfFrom 0 m

/-- Write at a 32-bit address. Only the addresses in range name a cell (R61), so a write elsewhere
finds none. -/
def Memory.writeAt (m : Memory) (a v : Word) : Memory :=
  if inRange a then m.write a.toNat v else m

/-- The cell at a 32-bit address. -/
def readCell (a : Word) (s : State) : Word := s.mem.read a.toNat

/-- Replace the cell at a 32-bit address. -/
def writeCell (a v : Word) (s : State) : State := { s with mem := s.mem.writeAt a v }

/-- The read access of `load_store_unit`: `none` is its `addr_fault` (R41, R65). -/
def dataRead (ea : Word) (s : State) : Option Word :=
  if inRange ea then some (readCell ea s) else none

/-- The write access of `load_store_unit`: `none` is its `addr_fault`, and then no cell changes
(R41, R65). -/
def dataWrite (ea v : Word) (s : State) : Option State :=
  if inRange ea then some (writeCell ea v s) else none

/-! ### Registers and the program counter -/

/-- `x[r]`. No register is hardwired (R20). -/
def readReg (r : Reg) (s : State) : Word := s.regs[r]

/-- `x[r] <- v` (R20, R22). -/
def writeReg (r : Reg) (v : Word) (s : State) : State := { s with regs := s.regs.set r v }

/-- `pc <- target`: no test, no masking (R171). -/
def setPc (target : Word) (s : State) : State := { s with pc := target }

/-! ### The alu -/

/-- The operations of `alu` that give a result (R40). -/
inductive AluOp where
  | add
  | sub
  | pass
  | sext
  deriving DecidableEq, Repr

/-- `alu`'s result, modulo 2^32 (R40, R129). -/
def aluResult (op : AluOp) (a b : Word) (imm : BitVec 16) : Word :=
  match op with
  | .add => a + b
  | .sub => a - b
  | .pass => b
  | .sext => imm.signExtend 32

/-! ### How a step ends -/

/-- Retire: count the instruction; `state` stays RUNNING (R118, R29). -/
def retire (s : State) : State := { s with icount := s.icount + 1 }

/-- `raise Fault(c)`: this model's one operation for taking an exception. Nothing is saved and
nothing is jumped to; `pc` keeps the value it has (R221, R224). No instruction returns from it
(R225). -/
def raiseFault (c : Cause) (s : State) : State := { s with state := .faulted, cause := c }

/-- The halt check fires (R114). -/
def haltRun (s : State) : State := { s with state := .halted }

/-- IN finds no acceptable value: the step has not happened, so `pc` holds the fetch address again,
and `in_req` is set (R119, R207). -/
def hold (s : State) : State := { s with pc := s.pc - 1, inReq := true }

/-! ### The ports -/

/-- What `InputTake()` finds (R207). -/
inductive Taken where
  /-- the host offers a value in [0, 255]; `in_req` is cleared and `in_port` takes the value -/
  | accepted (v : Word) (s : State)
  /-- the host is silent, or its offer is out of range and is rejected -/
  | waiting (s : State)
  deriving DecidableEq, Repr

/-- `InputTake()` on the host's next offer. An offer is gone once made; a rejected one leaves no
other trace (R207, R208). -/
def inputTake (s : State) : Taken :=
  match s.hostOffers with
  | [] => .waiting s
  | v :: rest =>
    if inputOk v then
      .accepted v { s with hostOffers := rest, inReq := false, inPort := v }
    else .waiting { s with hostOffers := rest }

/-- `out_port <- v; OutputPut(v)`: published at once, with no back-pressure, and recorded (R209,
R210). -/
def outputPut (v : Word) (s : State) : State :=
  { s with outPort := v, outValid := true, outputs := s.outputs ++ [v] }

/-- `out_valid` lasts for one step of the CORE (R44, R209; log entry 5). -/
def endPublish (s : State) : State := { s with outValid := false }

/-! ### Fetch -/

/-- `fetch_word`: the cell at `pc` (R37, R113). -/
def fetchWord (s : State) : Word := readCell s.pc s

/-- `pc <- a + 1`, before decode (R113). -/
def advancePc (s : State) : State := setPc (s.pc + 1) s

end Sys2Proof.Machine
end

