-- ==== Sys2Proof/Machine/Operands.lean ====
section
/-! DEFINITION. The operand forms (spec/30_encoding.md R83, spec/42_load_store.md R148,
spec/43_control_transfer.md R172, R180). A register operand is `readReg`. -/

namespace Sys2Proof.Machine

/-- LDI's value: `sext_32(imm)`, bit 15 copied into bits 31:16 (R83, R137). -/
def ldiValue (imm : Nat) : Word := aluResult .sext 0 0 (BitVec.ofNat 16 imm)

/-- BEQ's literal: `zext_32(r2)` (R83, R176). -/
def beqLiteral (k : Nat) : Word := (BitVec.ofNat 3 k).setWidth 32

/-- The effective address of LOAD and STORE: the whole register, no offset and no scaling (R148). -/
def effectiveAddress (ra : Reg) (s : State) : Word := readReg ra s

/-- The address of the inline operand word. In the execute phase `pc` is `a + 1` (R24, R172). -/
def inlineAddress (s : State) : Word := s.pc

/-- The address of CALL's save slot, its own cell: `pc - 1` in the execute phase (R180). -/
def saveSlot (s : State) : Word := s.pc - 1

/-- `pc <- M[pc]`, the transfer through the inline operand word, whose value is taken whole and not
tested (R171, R172); its read has the range check of every data access (R65). The instruction then
retires. -/
def jumpInline (s : State) : State :=
  match dataRead (inlineAddress s) s with
  | none => raiseFault .addressOutOfRange s
  | some target => retire (setPc target s)

end Sys2Proof.Machine
end

