-- ==== Sys2Proof/Machine/Flags.lean ====
section
/-! DEFINITION. Conditions. The CORE has no flags register and no condition codes
(spec/10_state.md R28); its one condition is computed by the instruction that uses it. -/

namespace Sys2Proof.Machine

/-- `eq` of `alu`: the whole 32-bit pattern against the zero-extended literal (R40, R176). -/
def aluEq (a : Word) (k : Nat) : Bool := a == beqLiteral k

end Sys2Proof.Machine
end

