-- ==== Sys2Proof/Machine/Alu.lean ====
section
/-! DEFINITION. The meanings of ADD, SUB, MOV, LDI and CMP (spec/41_alu.md). On entry `pc` is
already `a + 1` (R117). -/

namespace Sys2Proof.Machine

/-- ADD (R130). -/
def execAdd (rd rs1 rs2 : Reg) (s : State) : Host.Outcome State Fault Refusal :=
  .next (retire (writeReg rd (aluResult .add (readReg rs1 s) (readReg rs2 s) 0) s))

/-- SUB (R132). -/
def execSub (rd rs1 rs2 : Reg) (s : State) : Host.Outcome State Fault Refusal :=
  .next (retire (writeReg rd (aluResult .sub (readReg rs1 s) (readReg rs2 s) 0) s))

/-- MOV (R134). -/
def execMov (rd rs : Reg) (s : State) : Host.Outcome State Fault Refusal :=
  .next (retire (writeReg rd (aluResult .pass 0 (readReg rs s) 0) s))

/-- LDI (R137). -/
def execLdi (rd : Reg) (imm : Nat) (s : State) : Host.Outcome State Fault Refusal :=
  .next (retire (writeReg rd (ldiValue imm) s))

/-- CMP: no effect; it retires (R140). -/
def execCmp (_ra _rb : Reg) (s : State) : Host.Outcome State Fault Refusal :=
  .next (retire s)

end Sys2Proof.Machine
end

