-- ==== Sys2Proof/Machine/ControlTransfer.lean ====
section
/-! DEFINITION. The meanings of JMP, BEQ, CALL and RET (spec/43_control_transfer.md). On entry `pc`
is already `a + 1` (R117). -/

namespace Sys2Proof.Machine

/-- JMP (R172). -/
def execJmp (s : State) : Host.Outcome State Fault Refusal :=
  .next (jumpInline s)

/-- BEQ: taken through the inline operand word, else past it (R176). -/
def execBeq (r : Reg) (k : Nat) (s : State) : Host.Outcome State Fault Refusal :=
  if aluEq (readReg r s) k then .next (jumpInline s)
  else .next (retire (setPc (s.pc + 1) s))

/-- CALL: the target is read first, then the CALL's own cell takes the return address (R180). -/
def execCall (rt : Reg) (s : State) : Host.Outcome State Fault Refusal :=
  .next (retire (setPc (readReg rt s) (writeCell (saveSlot s) s.pc s)))

/-- RET: the inline operand word, not the slot that CALL wrote (R184). -/
def execRet (s : State) : Host.Outcome State Fault Refusal :=
  .next (jumpInline s)

end Sys2Proof.Machine
end

