-- ==== Sys2Proof/Machine/LoadStore.lean ====
section
/-! DEFINITION. The meanings of LOAD and STORE (spec/42_load_store.md). On entry `pc` is already
`a + 1` (R117). -/

namespace Sys2Proof.Machine

/-- LOAD (R150). -/
def execLoad (rd ra : Reg) (s : State) : Host.Outcome State Fault Refusal :=
  match dataRead (effectiveAddress ra s) s with
  | none => .next (raiseFault .addressOutOfRange s)
  | some v => .next (retire (writeReg rd v s))

/-- STORE (R152). -/
def execStore (rs ra : Reg) (s : State) : Host.Outcome State Fault Refusal :=
  match dataWrite (effectiveAddress ra s) (readReg rs s) s with
  | none => .next (raiseFault .addressOutOfRange s)
  | some t => .next (retire t)

end Sys2Proof.Machine
end

