-- ==== Sys2Proof/Machine/SystemIo.lean ====
section
/-! DEFINITION. The meanings of HALT, INT, IN and OUT (spec/44_system_io.md). On entry `pc` is
already `a + 1` (R117). -/

namespace Sys2Proof.Machine

/-- HALT: the halt check, which acts in place of a handler and is not counted (R114, R200). -/
def execHalt (s : State) : Host.Outcome State Fault Refusal :=
  .next (haltRun s)

/-- INT: always the fault INTERRUPT_SIGNAL (R203). -/
def execInt (s : State) : Host.Outcome State Fault Refusal :=
  .next (raiseFault .interruptSignal s)

/-- IN: an accepted value goes to the register; until there is one, the CORE waits (R207). -/
def execInp (rd : Reg) (s : State) : Host.Outcome State Fault Refusal :=
  match inputTake s with
  | .accepted v t => .next (retire (writeReg rd v t))
  | .waiting t => .next (hold t)

/-- OUT (R209). -/
def execOut (rs : Reg) (s : State) : Host.Outcome State Fault Refusal :=
  .next (retire (outputPut (readReg rs s) s))

end Sys2Proof.Machine
end

