-- ==== Sys2Proof/Machine/Dispatch.lean ====
section
/-! DEFINITION. The dispatch: one arm per instruction (spec/40_cycle.md R116). -/

namespace Sys2Proof.Machine

/-- The execute phase of an instruction, from the state in which `pc` is already `a + 1` (R117). -/
def exec (i : Instr) (s : State) : Host.Outcome State Fault Refusal :=
  match i with
  | .load rd ra => Sys2Proof.Machine.execLoad rd ra s
  | .store rs ra => Sys2Proof.Machine.execStore rs ra s
  | .add rd rs1 rs2 => Sys2Proof.Machine.execAdd rd rs1 rs2 s
  | .sub rd rs1 rs2 => Sys2Proof.Machine.execSub rd rs1 rs2 s
  | .mov rd rs => Sys2Proof.Machine.execMov rd rs s
  | .cmp ra rb => Sys2Proof.Machine.execCmp ra rb s
  | .jmp => Sys2Proof.Machine.execJmp s
  | .call rt => Sys2Proof.Machine.execCall rt s
  | .ret => Sys2Proof.Machine.execRet s
  | .beq r k => Sys2Proof.Machine.execBeq r k s
  | .int => Sys2Proof.Machine.execInt s
  | .ldi rd imm => Sys2Proof.Machine.execLdi rd imm s
  | .out rs => Sys2Proof.Machine.execOut rs s
  | .inp rd => Sys2Proof.Machine.execInp rd s
  | .halt => Sys2Proof.Machine.execHalt s

end Sys2Proof.Machine
end

