-- ==== Sys2Proof/Machine/HostPort.lean ====
section
/-! DEFINITION. The host's side of the interface: reset, program load, start, and what the host can
read (spec/10_state.md R44, spec/70_reset_and_hazards.md R250 to R258). -/

namespace Sys2Proof.Machine

/-! ### Host moves -/

/-- `reset`, from every state: every piece of state at its reset value. What the host will do is not
the CORE's, and stays (R250). -/
def hostReset (s : State) : State :=
  { State.reset with hostOffers := s.hostOffers, hostTurns := s.hostTurns }

/-- One load write: one whole cell in IDLE; ignored at an address that names no cell, and outside
IDLE (R253, R255). -/
def hostLoad (addr data : Word) (s : State) : State :=
  match s.state with
  | .idle => writeCell addr data s
  | .running => s
  | .halted => s
  | .faulted => s

/-- `start`: IDLE to RUNNING and nothing else; ignored outside IDLE (R253, R256). -/
def hostStart (s : State) : State :=
  match s.state with
  | .idle => { s with state := .running }
  | .running => s
  | .halted => s
  | .faulted => s

/-- The load writes of `words` to the cells from `a` on, `n` cells at most (R255). -/
def loadFrom : Nat → Nat → List Word → State → State
  | 0, _, _, s => s
  | _ + 1, _, [], s => s
  | n + 1, a, w :: words, s => loadFrom n (a + 1) words (hostLoad (BitVec.ofNat 32 a) w s)

/-- `loadProgram(words)`: from address 0, words past the 256th dropped (R255). -/
def loadProgram (words : List Word) (s : State) : State :=
  loadFrom Config.memorySize 0 words s

/-- The host makes one more offer to come (R207). -/
def hostOffer (v : Word) (s : State) : State := { s with hostOffers := s.hostOffers ++ [v] }

/-! ### Host reads -/

/-- The value of the 2-bit field `state` (R30). -/
def RunState.code : RunState → BitVec 2
  | .idle => 0
  | .running => 1
  | .halted => 2
  | .faulted => 3

/-- The value of the 3-bit field `cause` (R31). -/
def Cause.code : Cause → BitVec 3
  | .none => 0
  | .pcOutOfRange => 1
  | .unknownOpcode => 2
  | .addressOutOfRange => 3
  | .interruptSignal => 4

/-- The status outputs, always readable (R44, R258). -/
structure Status where
  state  : BitVec 2
  cause  : BitVec 3
  icount : BitVec 64
  deriving DecidableEq, Repr

/-- The status outputs in a state. -/
def statusOf (s : State) : Status where
  state  := s.state.code
  cause  := s.cause.code
  icount := s.icount

/-- The end-state read: what the host can read besides the status (R44, R258). -/
structure EndState where
  pc      : Word
  regs    : Vector Word 8
  mem     : Memory
  inPort  : Word
  outPort : Word
  deriving DecidableEq, Repr

/-- The CORE offers this view when it is not RUNNING, and none while it is (R258). -/
def hostRead (s : State) : Option EndState :=
  match s.state with
  | .running => none
  | .idle => some ⟨s.pc, s.regs, s.mem, s.inPort, s.outPort⟩
  | .halted => some ⟨s.pc, s.regs, s.mem, s.inPort, s.outPort⟩
  | .faulted => some ⟨s.pc, s.regs, s.mem, s.inPort, s.outPort⟩

/-- `out_valid` with `out_data`: what the last step of the CORE published. `out_data` shares the
value of `out_port` (R209). -/
def outSignal (s : State) : Option Word := if s.outValid then some s.outPort else none

end Sys2Proof.Machine
end

