-- ==== Sys2Proof/Machine/Cycle.lean ====
section
/-! DEFINITION. The instruction cycle (spec/40_cycle.md R110 to R120), the host's turns (R253), and
placing an instruction where the next step fetches. -/

namespace Sys2Proof.Machine

/-- Halt check, decode, dispatch and execute of a fetched word, `pc` being already `a + 1`. The
decoder gives HALT as an instruction, so the halt check comes before the dispatch check as R120
orders; a word that stands for none raises UNKNOWN_OPCODE (R114, R115, R116). -/
def executeWord (w : Word) (s : State) : Host.Outcome State Fault Refusal :=
  match decode w with
  | .ok i => exec i s
  | .error (.undefinedOpcode _) => .next (raiseFault .unknownOpcode s)

/-- `Step()` of R110: the fetch range check, then fetch, advance and the rest. -/
def cycle (s : State) : Host.Outcome State Fault Refusal :=
  if inRange s.pc then executeWord (fetchWord s) (advancePc s)
  else .next (raiseFault .pcOutOfRange s)

/-- The CORE's move: a cycle when RUNNING; nothing in IDLE, HALTED and FAULTED (R111). -/
def coreTurn (s : State) : Host.Outcome State Fault Refusal :=
  match s.state with
  | .running => cycle (endPublish s)
  | .idle => .next s
  | .halted => .next s
  | .faulted => .next s

/-- One turn: the host's move, or the CORE's when the host is quiet (R253). -/
def takeTurn (t : HostTurn) (s : State) : Host.Outcome State Fault Refusal :=
  match t with
  | .reset => .next (hostReset s)
  | .load addr data => .next (hostLoad addr data s)
  | .start => .next (hostStart s)
  | .quiet => coreTurn s

/-- The next turn of the host's list; a host with no turn listed is quiet. -/
def nextTurn (s : State) : Host.Outcome State Fault Refusal :=
  match s.hostTurns with
  | [] => coreTurn s
  | t :: rest => takeTurn t { s with hostTurns := rest }

/-- Put a word where the next step fetches, and let that step be a cycle: RUNNING with no cause, no
host turn before it, and a `pc` at which a fetch can be made (its own where it is one). -/
def placeWord (w : Word) (s : State) : State :=
  let pc := if inRange s.pc then s.pc else Config.resetPc
  writeCell pc w { s with pc := pc, state := .running, cause := .none, hostTurns := [] }

end Sys2Proof.Machine
end

