-- ==== Sys2Proof/Machine/Step.lean ====
section
/-! DEFINITION. The step of the machine. -/

namespace Sys2Proof.Machine

/-- One step: one turn of the host, or one cycle of the CORE (R10, R110, R253). -/
def step : State → Host.Outcome State Fault Refusal := nextTurn

/-- The state in which the very next step fetches and runs the instruction whose bits are `w`. -/
def State.withFetchWord (s : State) (nbits w : Nat) : State := placeWord (tableCell nbits w) s

end Sys2Proof.Machine
end

