-- ==== Sys2Proof/Machine/PcMux.lean ====
section
/-! DEFINITION. `program_counter_mux` (spec/10_state.md R42, spec/43_control_transfer.md R170): the
single selection of the next `pc`, from the state before the step. The meanings write `pc` in the
two stages of their rules' pseudocode; R170 says that the two are the same, and an obligation states
it of this model. -/

namespace Sys2Proof.Machine

/-- The five sources (R42). -/
inductive PcSource where
  | hold
  | seq
  | skip
  | reg (rt : Reg)
  | mem
  deriving DecidableEq, Repr

/-- The value of a source, `a` being `pc` before the step (R42, R170). -/
def pcMux (src : PcSource) (s : State) : Word :=
  match src with
  | .hold => s.pc
  | .seq => s.pc + 1
  | .skip => s.pc + 2
  | .reg rt => readReg rt s
  | .mem => readCell (s.pc + 1) s

/-- SEQ where the inline read faults, else MEM (R170). -/
def inlineSource (s : State) : PcSource := if inRange (s.pc + 1) then .mem else .seq

/-- Which source R170 chooses for a decoded instruction. -/
def instrPcSource (i : Instr) (s : State) : PcSource :=
  match i with
  | .jmp => inlineSource s
  | .ret => inlineSource s
  | .beq r k => if aluEq (readReg r s) k then inlineSource s else .skip
  | .call rt => .reg rt
  | .load _ _ => .seq
  | .store _ _ => .seq
  | .add _ _ _ => .seq
  | .sub _ _ _ => .seq
  | .mov _ _ => .seq
  | .cmp _ _ => .seq
  | .int => .seq
  | .ldi _ _ => .seq
  | .out _ => .seq
  | .inp _ => .seq
  | .halt => .seq

/-- Which source R170 chooses, from the state before the step. -/
def pcSource (s : State) : PcSource :=
  if inRange s.pc then
    match decode (fetchWord s) with
    | .ok i => instrPcSource i s
    | .error _ => .seq
  else .hold

end Sys2Proof.Machine
end

