-- ==== Sys2Proof/Safety.lean ====
section
/-! DEFINITION. The terms that claims use: what a run shows (spec/70_reset_and_hazards.md R259),
when a step is the CORE's, and the invariant of the machine. -/

namespace Sys2Proof.Machine

/-- What a claim can observe of a run (R259): the spec's architectural state (R20 to R34) and the
values OUT published (R210). A memory in canonical form stands for its 256 cells. -/
structure Observation where
  state   : RunState
  cause   : Cause
  pc      : Word
  icount  : BitVec 64
  regs    : Vector Word 8
  mem     : Memory
  inPort  : Word
  outPort : Word
  outputs : List Word
  deriving DecidableEq, Repr

/-- The observation of a state. -/
def observe (s : State) : Observation where
  state   := s.state
  cause   := s.cause
  pc      := s.pc
  icount  := s.icount
  regs    := s.regs
  mem     := s.mem
  inPort  := s.inPort
  outPort := s.outPort
  outputs := s.outputs

/-- The host's move at the next step. -/
def State.hostMove (s : State) : HostTurn := s.hostTurns.headD .quiet

/-- The next step is a cycle of the CORE: it is RUNNING and the host is quiet (R111, R253). -/
def State.coreMoves (s : State) : Bool := decide (s.state = .running) && decide (s.hostMove = .quiet)

/-- The run is over (R259). -/
def State.ended (s : State) : Bool := decide (s.state = .halted) || decide (s.state = .faulted)

/-- The state from which a cycle of the CORE fetches: the host's turn is spent, and the pulse of
`out_valid` is over. -/
def State.atFetch (s : State) : State :=
  { s with hostTurns := s.hostTurns.tail, outValid := false }

/-- `k` steps of the machine behind the host's interface. -/
def runSteps (k : Nat) (s : State) : Host.Outcome State Fault Refusal :=
  Host.Core.run Sys2Proof.core k s

/-- `0 <= signed(v) <= 255`: the legal addresses (R65), and the values IN accepts (R207). -/
abbrev InByteRange (v : Word) : Prop := 0 ≤ v.toInt ∧ v.toInt ≤ 255

/-- The fields of the cell at `pc`. -/
def State.fetched (s : State) : Fields := fieldsOf (s.mem.read s.pc.toNat)

/-- The cell at `pc` is an IN. -/
def State.atIn (s : State) : Bool := inRange s.pc && (s.fetched.op == 0x0E)

/-- The opcodes that R89 calls illegal. -/
abbrev Undefined (op : BitVec 8) : Prop := op = 0x0C ∨ 0x10 ≤ op.toNat

/-! ### What the spec's tables say of an instruction -/

/-- The registers that R21 says an instruction reads. -/
def readsOf : Instr → List Reg
  | .load _ ra => [ra]
  | .store rs ra => [rs, ra]
  | .add _ rs1 rs2 => [rs1, rs2]
  | .sub _ rs1 rs2 => [rs1, rs2]
  | .mov _ rs => [rs]
  | .cmp _ _ => []
  | .jmp => []
  | .call rt => [rt]
  | .ret => []
  | .beq r _ => [r]
  | .int => []
  | .ldi _ _ => []
  | .out rs => [rs]
  | .inp _ => []
  | .halt => []

/-- The register that R21 says an instruction writes. -/
def writesOf : Instr → Option Reg
  | .load rd _ => some rd
  | .store _ _ => none
  | .add rd _ _ => some rd
  | .sub rd _ _ => some rd
  | .mov rd _ => some rd
  | .cmp _ _ => none
  | .jmp => none
  | .call _ => none
  | .ret => none
  | .beq _ _ => none
  | .int => none
  | .ldi rd _ => some rd
  | .out _ => none
  | .inp rd => some rd
  | .halt => none

/-- The bits of a word that count, by its opcode: the opcode itself, and the fields that R82 does not
call ignored. Bits 31:30 never count (R81). -/
def usedBits (op : BitVec 8) : Word :=
  match op.toNat with
  | 0x00 => 0x3FFF0000
  | 0x01 => 0x3FFF0000
  | 0x02 => 0x3FFF0007
  | 0x03 => 0x3FFF0007
  | 0x04 => 0x3FFF0000
  | 0x07 => 0x3FF80000
  | 0x09 => 0x3FFF0000
  | 0x0B => 0x3FF8FFFF
  | 0x0D => 0x3FF80000
  | 0x0E => 0x3FF80000
  | _ => 0x3FC00000

/-! ### Invariants -/

/-- What holds between steps. -/
structure Inv (s : State) : Prop where
  /-- the memory is in canonical form and lists only the addresses 0 to 255 (R34, R61) -/
  memory : s.mem.wf = true
  /-- `cause` is NONE in every state but FAULTED, and never in FAULTED (R31) -/
  cause : s.cause = .none ↔ s.state ≠ .faulted
  /-- `in_port` is in [0, 255] (R33) -/
  inPort : InByteRange s.inPort
  /-- `out_port` is the last value published, 0 if none was (R210) -/
  outPort : s.outPort = s.outputs.getLastD 0
  /-- `in_req` is set only while an IN waits (R44, R207) -/
  inReq : s.inReq = true → s.state = .running ∧ s.atIn = true
  /-- `out_valid` is set only when something was published (R209) -/
  outValid : s.outValid = true → s.state = .running ∧ s.outputs ≠ []
  /-- in IDLE everything but the memory is as reset left it, so a run starts at address 0
  (R253, R256) -/
  idle : s.state = .idle →
    s.pc = 0 ∧ s.regs = Vector.replicate 8 0 ∧ s.icount = 0 ∧ s.inPort = 0 ∧ s.outputs = []

/-- The cell before `pc`: where the instruction that ended the run was fetched, when the fetch
itself did not fault (R224). -/
def State.lastFetched (s : State) : Fields := fieldsOf (s.mem.read (s.pc - 1).toNat)

/-- The end state of a run explains why it ended: the halted run's last cell is a HALT, and the
faulted run's `pc`, last cell and registers show the condition of its `cause` (R114, R220, R224). -/
structure EndExplained (s : State) : Prop where
  /-- HALTED: the cell before `pc` is a HALT -/
  halted : s.state = .halted → InByteRange (s.pc - 1) ∧ s.lastFetched.op = 0x0F
  /-- FAULTED: there is a cause -/
  caused : s.state = .faulted → s.cause ≠ .none
  /-- PC_OUT_OF_RANGE: `pc` still holds the bad address -/
  fetch : s.state = .faulted → s.cause = .pcOutOfRange → ¬ InByteRange s.pc
  /-- UNKNOWN_OPCODE: the cell before `pc` has an illegal opcode -/
  opcode : s.state = .faulted → s.cause = .unknownOpcode →
    InByteRange (s.pc - 1) ∧ Undefined s.lastFetched.op
  /-- ADDRESS_OUT_OF_RANGE: the bad address is still in `x[r2]`, or the inline word would be at 256 -/
  address : s.state = .faulted → s.cause = .addressOutOfRange →
    InByteRange (s.pc - 1) ∧
    (((s.lastFetched.op = 0x00 ∨ s.lastFetched.op = 0x01) ∧
        ¬ InByteRange (readReg (regOf s.lastFetched.r2) s)) ∨
      (s.pc = 256 ∧
        (s.lastFetched.op = 0x06 ∨ s.lastFetched.op = 0x08 ∨
          (s.lastFetched.op = 0x09 ∧
            readReg (regOf s.lastFetched.r1) s = s.lastFetched.r2.setWidth 32))))
  /-- INTERRUPT_SIGNAL: the cell before `pc` is an INT -/
  interrupt : s.state = .faulted → s.cause = .interruptSignal →
    InByteRange (s.pc - 1) ∧ s.lastFetched.op = 0x0A

end Sys2Proof.Machine
end

