-- ==== Sys2Proof/Certificates/Slice0/Obligations.lean ====
section
/-! DEFINITION. The statements for the provers. Each docstring names the rule of spec/ it states. An
execute-phase statement is about `exec i s`, where `s.pc` is already `a + 1` (R117); a statement about
a cycle is about `step s` with `s.coreMoves`, where `s.pc` is `a`. -/

open Sys2Proof Sys2Proof.Machine

/-! ### The encoding -/

/-- Words written out from the field positions of R80, the operand fields of R82, the opcodes of R86 and
R89 and the encodings of R92 decode to what they stand for; the vectors E2 to E11 of 95_test_vectors.md
are among them. -/
def Obligations.WrittenOutWordsDecode : Prop :=
  decode 0x000A0000 = .ok (.load 1 2) ∧
  decode 0x004A0000 = .ok (.store 1 2) ∧
  decode 0x008AFFFB = .ok (.add 1 2 3) ∧
  decode 0xC08A0003 = .ok (.add 1 2 3) ∧
  decode 0x00CA0003 = .ok (.sub 1 2 3) ∧
  decode 0x010A0000 = .ok (.mov 1 2) ∧
  decode 0x014A0000 = .ok (.cmp 1 2) ∧
  decode 0x01800000 = .ok .jmp ∧
  decode 0x01E00000 = .ok (.call 4) ∧
  decode 0x02000000 = .ok .ret ∧
  decode 0x026F0000 = .ok (.beq 5 7) ∧
  decode 0x02BFFFFF = .ok .int ∧
  decode 0x02D0FFFF = .ok (.ldi 2 0xFFFF) ∧
  decode 0x03600000 = .ok (.out 4) ∧
  decode 0x03880000 = .ok (.inp 1) ∧
  decode 0x03FFFFFF = .ok .halt ∧
  decode 0xC3C00000 = .ok .halt ∧
  decode 0x00000003 = .ok (.load 0 0) ∧
  decode 0x03000000 = .error (.undefinedOpcode 0x0C) ∧
  decode 0x04000000 = .error (.undefinedOpcode 0x10) ∧
  decode 0x3FC00000 = .error (.undefinedOpcode 0xFF) ∧
  decode 0xFFFFFFFF = .error (.undefinedOpcode 0xFF)

/-- R85: decode is total, by fixed positions, and gives back the fields that `encode` packed. -/
def Obligations.DecodeExtractsTheEncodedFields : Prop :=
  (∀ w : Word,
    (fieldsOf w).op = w.extractLsb 29 22 ∧ (fieldsOf w).r1 = w.extractLsb 21 19 ∧
    (fieldsOf w).r2 = w.extractLsb 18 16 ∧ (fieldsOf w).imm = w.extractLsb 15 0 ∧
    (fieldsOf w).r3 = w.extractLsb 2 0) ∧
  (∀ op r1 r2 imm : Nat, op < 256 → r1 < 8 → r2 < 8 → imm < 65536 →
    ∃ w, encodeFields op r1 r2 imm = .ok w ∧
      (fieldsOf w).op.toNat = op ∧ (fieldsOf w).r1.toNat = r1 ∧
      (fieldsOf w).r2.toNat = r2 ∧ (fieldsOf w).imm.toNat = imm)

/-- R84's formula: `encode` is `(op << 22) | (r1 << 19) | (r2 << 16) | imm` where every field fits,
bits 31:30 zero, and fails where a field exceeds its width. -/
def Obligations.EncodePacksOrFails : Prop :=
  ∀ op r1 r2 imm : Nat,
    (op ≤ 255 ∧ r1 ≤ 7 ∧ r2 ≤ 7 ∧ imm ≤ 0xFFFF →
      encodeFields op r1 r2 imm = .ok
        (BitVec.ofNat 32 op <<< 22 ||| BitVec.ofNat 32 r1 <<< 19 |||
          BitVec.ofNat 32 r2 <<< 16 ||| BitVec.ofNat 32 imm)) ∧
    (op > 255 ∨ r1 > 7 ∨ r2 > 7 ∨ imm > 0xFFFF →
      ∃ e, encodeFields op r1 r2 imm = .error e)

/-- Decode and encode agree on every instruction: a well-formed one has a word, which decodes to it
with every operand; one that is not well-formed has none (30_encoding.md sections 2 and 3). -/
def Obligations.DecodeOfEncodeIsTheInstruction : Prop :=
  ∀ i : Instr,
    (WellFormed i → ∃ w, encode i = .ok w ∧ decode w = .ok i) ∧
    (¬ WellFormed i → ∃ e, encode i = .error e)

/-- The other direction: what a word decodes to is well-formed, and its canonical word has the same
opcode field and decodes to the same instruction (30_encoding.md sections 1 to 3). -/
def Obligations.DecodedWordHasACanonicalWord : Prop :=
  ∀ (w : Word) (i : Instr), decode w = .ok i →
    WellFormed i ∧
    ∃ c, encode i = .ok c ∧ decode c = .ok i ∧ c &&& 0xFFC00000 = w &&& 0x3FC00000

/-- R89's illegal opcodes are exactly the words that decode to no instruction. -/
def Obligations.IllegalOpcodesDecodeToNothing : Prop :=
  ∀ w : Word,
    decode w = .error (.undefinedOpcode (w.extractLsb' 22 8)) ↔ Undefined (w.extractLsb' 22 8)

/-- R81, R82: bits 31:30 and the fields an instruction does not use do not matter: a word decodes as it
does with bits 31:30 clear, and in every state the execution of two words that differ in ignored bits
alone is the same. -/
def Obligations.IgnoredBitsDoNotMatter : Prop :=
  (∀ w : Word, decode w = decode (w &&& 0x3FFFFFFF)) ∧
  ∀ (w v : Word) (s : State),
    w &&& usedBits (w.extractLsb' 22 8) = v &&& usedBits (w.extractLsb' 22 8) →
    executeWord w s = executeWord v s

/-- A small number fetched as code is `LOAD R0, [R0]`, whatever the number (43_control_transfer.md
section 6; 70_reset_and_hazards.md section 5). -/
def Obligations.SmallNumbersDecodeAsLoad : Prop :=
  ∀ n : Nat, n < 65536 → decode (BitVec.ofNat 32 n) = .ok (.load 0 0)

/-! ### The cycle -/

/-- When the CORE moves and the cell at an in-range `pc` decodes to `i`, the step is `exec i` with
`pc` advanced (40_cycle.md sections 1 to 5). Around it this model spends the host's quiet turn and
ends an earlier `out_valid` (log entries 3 and 5). -/
def Obligations.StepRunsTheDecodedInstruction : Prop :=
  ∀ (s : State) (i : Instr), s.coreMoves = true → InByteRange s.pc →
    decode (s.mem.read s.pc.toNat) = .ok i →
    step s =
      exec i { s with pc := s.pc + 1, outValid := false, hostTurns := s.hostTurns.tail }

/-- R112: a fetch whose `pc` is out of range changes `state` and `cause` and nothing else. -/
def Obligations.FetchOutOfRangeFaults : Prop :=
  ∀ s : State, s.coreMoves = true → ¬ InByteRange s.pc →
    ∃ t, step s = .next t ∧
      observe t = { observe s with state := .faulted, cause := .pcOutOfRange }

/-- R114: a word whose opcode field is 0x0F halts the run; only `pc` advances. -/
def Obligations.HaltOpcodeHaltsTheRun : Prop :=
  ∀ s : State, s.coreMoves = true → InByteRange s.pc → s.fetched.op = 0x0F →
    ∃ t, step s = .next t ∧ observe t = { observe s with state := .halted, pc := s.pc + 1 }

/-- R116: an opcode that no handler matches raises UNKNOWN_OPCODE; only `pc` advances. -/
def Obligations.UndefinedOpcodeFaults : Prop :=
  ∀ s : State, s.coreMoves = true → InByteRange s.pc → Undefined s.fetched.op →
    ∃ t, step s = .next t ∧
      observe t =
        { observe s with state := .faulted, cause := .unknownOpcode, pc := s.pc + 1 }

/-- R119: a step ends retired, halted, faulted or waiting. The premise rules out states with `in_req`
set and no IN waiting. -/
def Obligations.StepHasOneOfFourOutcomes : Prop :=
  ∀ s t : State, Inv s → s.coreMoves = true → step s = .next t →
    (t.state = .running ∧ t.icount = s.icount + 1 ∧ t.cause = .none ∧ t.inReq = false) ∨
    (InByteRange s.pc ∧ s.fetched.op = 0x0F ∧
      observe t = { observe s with state := .halted, pc := s.pc + 1 }) ∨
    (∃ c, c ≠ .none ∧
      observe t =
        { observe s with
          state := .faulted
          cause := c
          pc := if c = .pcOutOfRange then s.pc else s.pc + 1 }) ∨
    (InByteRange s.pc ∧ s.fetched.op = 0x0E ∧ observe t = observe s ∧ t.inReq = true)

/-- Every step of the model answers a next state. For a step of the CORE, that it has a result is
93_implementation_defined.md section 2; that the model has no fault and no refusal beside the CORE's own
FAULTED is log entry 10 (DEDUCED). In IDLE, HALTED and FAULTED the CORE makes no step (R111): that the
model's step answers there is its choice (log entry 8), and so is a step for a host's move (log entry
3). -/
def Obligations.EveryStepAnswersANextState : Prop :=
  ∀ s : State, ∃ t, step s = .next t

/-! ### Each instruction, in its execute phase -/

/-- R150: LOAD. -/
def Obligations.LoadReadsTheAddressedCell : Prop :=
  (∀ w : Word, w.extractLsb' 22 8 = 0x00 →
    decode w = .ok (.load (regOf (w.extractLsb' 19 3)) (regOf (w.extractLsb' 16 3)))) ∧
  (∀ d ad : Reg, encode (.load d ad) = encodeFields 0x00 d ad 0) ∧
  ∀ (rd ra : Reg) (s : State),
    (InByteRange s.regs[ra] →
      exec (.load rd ra) s =
        .next { s with
          regs := s.regs.set rd (s.mem.read s.regs[ra].toNat)
          icount := s.icount + 1 }) ∧
    (¬ InByteRange s.regs[ra] →
      exec (.load rd ra) s = .next { s with state := .faulted, cause := .addressOutOfRange })

/-- R152: STORE. The premise is the memory's canonical form. -/
def Obligations.StoreWritesTheAddressedCell : Prop :=
  (∀ w : Word, w.extractLsb' 22 8 = 0x01 →
    decode w = .ok (.store (regOf (w.extractLsb' 19 3)) (regOf (w.extractLsb' 16 3)))) ∧
  (∀ s ad : Reg, encode (.store s ad) = encodeFields 0x01 s ad 0) ∧
  ∀ (rs ra : Reg) (s : State), s.mem.wf = true →
    (InByteRange s.regs[ra] →
      ∃ t, exec (.store rs ra) s = .next t ∧
        t.mem.read s.regs[ra].toNat = s.regs[rs] ∧
        (∀ n, n ≠ s.regs[ra].toNat → t.mem.read n = s.mem.read n) ∧
        t = { s with mem := t.mem, icount := s.icount + 1 }) ∧
    (¬ InByteRange s.regs[ra] →
      exec (.store rs ra) s = .next { s with state := .faulted, cause := .addressOutOfRange })

/-- R130: ADD. -/
def Obligations.AddWritesTheSum : Prop :=
  (∀ w : Word, w.extractLsb' 22 8 = 0x02 →
    decode w = .ok (.add (regOf (w.extractLsb' 19 3)) (regOf (w.extractLsb' 16 3))
      (regOf (w.extractLsb' 0 3)))) ∧
  (∀ d s1 s2 : Reg, encode (.add d s1 s2) = encodeFields 0x02 d s1 s2) ∧
  ∀ (rd rs1 rs2 : Reg) (s : State),
    exec (.add rd rs1 rs2) s =
      .next { s with
        regs := s.regs.set rd (s.regs[rs1] + s.regs[rs2])
        icount := s.icount + 1 }

/-- R132: SUB. -/
def Obligations.SubWritesTheDifference : Prop :=
  (∀ w : Word, w.extractLsb' 22 8 = 0x03 →
    decode w = .ok (.sub (regOf (w.extractLsb' 19 3)) (regOf (w.extractLsb' 16 3))
      (regOf (w.extractLsb' 0 3)))) ∧
  (∀ d s1 s2 : Reg, encode (.sub d s1 s2) = encodeFields 0x03 d s1 s2) ∧
  ∀ (rd rs1 rs2 : Reg) (s : State),
    exec (.sub rd rs1 rs2) s =
      .next { s with
        regs := s.regs.set rd (s.regs[rs1] - s.regs[rs2])
        icount := s.icount + 1 }

/-- R134: MOV. -/
def Obligations.MovCopiesTheRegister : Prop :=
  (∀ w : Word, w.extractLsb' 22 8 = 0x04 →
    decode w = .ok (.mov (regOf (w.extractLsb' 19 3)) (regOf (w.extractLsb' 16 3)))) ∧
  (∀ d s : Reg, encode (.mov d s) = encodeFields 0x04 d s 0) ∧
  ∀ (rd rs : Reg) (s : State),
    exec (.mov rd rs) s =
      .next { s with regs := s.regs.set rd s.regs[rs], icount := s.icount + 1 }

/-- R137: LDI, with the range of values that one LDI can load. -/
def Obligations.LdiLoadsTheSignExtendedImmediate : Prop :=
  (∀ w : Word, w.extractLsb' 22 8 = 0x0B →
    decode w = .ok (.ldi (regOf (w.extractLsb' 19 3)) (w.extractLsb' 0 16).toNat)) ∧
  (∀ (d : Reg) (imm : Nat), encode (.ldi d imm) = encodeFields 0x0B d 0 imm) ∧
  ∀ (rd : Reg) (imm : Nat) (s : State), WellFormed (.ldi rd imm) →
    ∃ v : Word,
      v.toInt = (if imm < 0x8000 then (imm : Int) else (imm : Int) - 65536) ∧
      -32768 ≤ v.toInt ∧ v.toInt ≤ 32767 ∧
      exec (.ldi rd imm) s =
        .next { s with regs := s.regs.set rd v, icount := s.icount + 1 }

/-- R140: CMP changes nothing but the count (`pc` has advanced). -/
def Obligations.CmpHasNoEffect : Prop :=
  (∀ w : Word, w.extractLsb' 22 8 = 0x05 → ∃ ra rb, decode w = .ok (.cmp ra rb)) ∧
  (∀ a b : Reg, encode (.cmp a b) = encodeFields 0x05 a b 0) ∧
  ∀ (ra rb : Reg) (s : State),
    exec (.cmp ra rb) s = .next { s with icount := s.icount + 1 }

/-- R172: JMP. -/
def Obligations.JmpGoesThroughTheInlineWord : Prop :=
  (∀ w : Word, w.extractLsb' 22 8 = 0x06 → decode w = .ok .jmp) ∧
  encode .jmp = .ok 0x01800000 ∧
  ∀ s : State,
    (InByteRange s.pc →
      exec .jmp s = .next { s with pc := s.mem.read s.pc.toNat, icount := s.icount + 1 }) ∧
    (¬ InByteRange s.pc →
      exec .jmp s = .next { s with state := .faulted, cause := .addressOutOfRange })

/-- R184: RET reads the cell after itself. -/
def Obligations.RetGoesThroughTheInlineWord : Prop :=
  (∀ w : Word, w.extractLsb' 22 8 = 0x08 → decode w = .ok .ret) ∧
  encode .ret = .ok 0x02000000 ∧
  ∀ s : State,
    (InByteRange s.pc →
      exec .ret s = .next { s with pc := s.mem.read s.pc.toNat, icount := s.icount + 1 }) ∧
    (¬ InByteRange s.pc →
      exec .ret s = .next { s with state := .faulted, cause := .addressOutOfRange })

/-- R176: BEQ. -/
def Obligations.BeqBranchesOnTheLiteral : Prop :=
  (∀ w : Word, w.extractLsb' 22 8 = 0x09 →
    decode w = .ok (.beq (regOf (w.extractLsb' 19 3)) (w.extractLsb' 16 3).toNat)) ∧
  (∀ (r : Reg) (k : Nat), encode (.beq r k) = encodeFields 0x09 r k 0) ∧
  ∀ (r : Reg) (k : Nat) (s : State), WellFormed (.beq r k) →
    (s.regs[r].toNat = k → InByteRange s.pc →
      exec (.beq r k) s =
        .next { s with pc := s.mem.read s.pc.toNat, icount := s.icount + 1 }) ∧
    (s.regs[r].toNat = k → ¬ InByteRange s.pc →
      exec (.beq r k) s = .next { s with state := .faulted, cause := .addressOutOfRange }) ∧
    (s.regs[r].toNat ≠ k →
      exec (.beq r k) s = .next { s with pc := s.pc + 1, icount := s.icount + 1 })

/-- CALL saves `a + 1` in its own cell and goes to the register's value (43_control_transfer.md section
4). In a state that a fetch can lead to, that cell is in range. The last clause says that CALL completes
in every state: that it does so where `pc - 1` names no cell, of which the spec does not speak, and
that it then writes no cell, is the model's choice (log entry 11). The first premise is the memory's canonical form (log entry 1). -/
def Obligations.CallSavesAndGoesToTheRegister : Prop :=
  (∀ w : Word, w.extractLsb' 22 8 = 0x07 → decode w = .ok (.call (regOf (w.extractLsb' 19 3)))) ∧
  (∀ t : Reg, encode (.call t) = encodeFields 0x07 t 0 0) ∧
  ∀ (rt : Reg) (s : State), s.mem.wf = true →
    (InByteRange (s.pc - 1) →
      ∃ t, exec (.call rt) s = .next t ∧
        t.mem.read (s.pc - 1).toNat = s.pc ∧
        (∀ n, n ≠ (s.pc - 1).toNat → t.mem.read n = s.mem.read n) ∧
        t = { s with mem := t.mem, pc := s.regs[rt], icount := s.icount + 1 }) ∧
    ∃ t, exec (.call rt) s = .next t ∧
      t = { s with mem := t.mem, pc := s.regs[rt], icount := s.icount + 1 } ∧
      (¬ InByteRange (s.pc - 1) → t.mem = s.mem)

/-- Every word with the opcode 0x0F is HALT, whatever its other bits, and the canonical one is 0x03C00000
(R88); HALT sets HALTED and changes nothing else, `pc` staying at `a + 1` (R114, R200). The spec tests
for the halt before dispatch and gives HALT no handler: that the decoder gives it as an instruction with
an execute phase is log entry 9 (DEDUCED). -/
def Obligations.HaltSentinelIsTheOpcode : Prop :=
  (∀ w : Word, w.extractLsb' 22 8 = 0x0F → decode w = .ok .halt) ∧
  encode .halt = .ok 0x03C00000 ∧
  ∀ s : State, exec .halt s = .next { s with state := .halted }

/-- R203: INT always raises INTERRUPT_SIGNAL; nothing else changes. -/
def Obligations.IntRaisesInterruptSignal : Prop :=
  (∀ w : Word, w.extractLsb' 22 8 = 0x0A → decode w = .ok .int) ∧
  encode .int = .ok 0x02800000 ∧
  Cause.interruptSignal.code = 4 ∧
  ∀ s : State,
    exec .int s = .next { s with state := .faulted, cause := .interruptSignal }

/-- IN (44_system_io.md section 3): it takes an offered value in [0, 255]; it rejects another; with
none it waits. That the offers stand in a list of the state, one taken each time IN waits, is the
model's choice (log entry 2); a CORE that waits fetches the IN again (log entry 6). -/
def Obligations.InTakesAnAcceptableOffer : Prop :=
  (∀ w : Word, w.extractLsb' 22 8 = 0x0E → decode w = .ok (.inp (regOf (w.extractLsb' 19 3)))) ∧
  (∀ d : Reg, encode (.inp d) = encodeFields 0x0E d 0 0) ∧
  ∀ (rd : Reg) (s : State),
    (∀ v rest, s.hostOffers = v :: rest → InByteRange v →
      exec (.inp rd) s =
        .next { s with
          regs := s.regs.set rd v
          inPort := v
          inReq := false
          hostOffers := rest
          icount := s.icount + 1 }) ∧
    (∀ v rest, s.hostOffers = v :: rest → ¬ InByteRange v →
      exec (.inp rd) s =
        .next { s with pc := s.pc - 1, inReq := true, hostOffers := rest }) ∧
    (s.hostOffers = [] → exec (.inp rd) s = .next { s with pc := s.pc - 1, inReq := true })

/-- R209: OUT publishes the whole register, whatever its value, and `out_port` keeps it. -/
def Obligations.OutPublishesTheRegister : Prop :=
  (∀ w : Word, w.extractLsb' 22 8 = 0x0D → decode w = .ok (.out (regOf (w.extractLsb' 19 3)))) ∧
  (∀ s : Reg, encode (.out s) = encodeFields 0x0D s 0 0) ∧
  ∀ (rs : Reg) (s : State),
    ∃ t, exec (.out rs) s = .next t ∧ outSignal t = some s.regs[rs] ∧
      t = { s with
        outPort := s.regs[rs]
        outValid := true
        outputs := s.outputs ++ [s.regs[rs]]
        icount := s.icount + 1 }

/-- R129: sums and differences are taken modulo 2^32 in either reading, and an overflow raises
nothing. -/
def Obligations.ArithmeticWrapsModulo2To32 : Prop :=
  (∀ (rd rs1 rs2 : Reg) (s : State),
    ∃ t, exec (.add rd rs1 rs2) s = .next t ∧ t.state = s.state ∧ t.cause = s.cause ∧
      t.regs[rd].toNat = (s.regs[rs1].toNat + s.regs[rs2].toNat) % 2 ^ 32 ∧
      t.regs[rd].toInt = (s.regs[rs1].toInt + s.regs[rs2].toInt).bmod (2 ^ 32)) ∧
  (∀ (rd rs1 rs2 : Reg) (s : State),
    ∃ t, exec (.sub rd rs1 rs2) s = .next t ∧ t.state = s.state ∧ t.cause = s.cause ∧
      (t.regs[rd].toNat : Int) = ((s.regs[rs1].toNat : Int) - s.regs[rs2].toNat) % 2 ^ 32 ∧
      t.regs[rd].toInt = (s.regs[rs1].toInt - s.regs[rs2].toInt).bmod (2 ^ 32))

/-! ### Frames and whole-machine rules -/

/-- R21: each instruction reads and writes the registers its row lists: it writes no other, and none
when it faults; and a register it does not read can hold any value without a change of its effect. -/
def Obligations.RegistersReadAndWrittenAsListed : Prop :=
  (∀ (i : Instr) (s t : State), exec i s = .next t →
    (∀ q : Reg, writesOf i ≠ some q → t.regs[q] = s.regs[q]) ∧
    (t.state = .faulted → s.state ≠ .faulted → t.regs = s.regs)) ∧
  (∀ (i : Instr) (s : State) (q : Reg) (v : Word), q ∉ readsOf i →
    ∃ t u, exec i s = .next t ∧ exec i { s with regs := s.regs.set q v } = .next u ∧
      u = { t with regs := u.regs } ∧
      (∀ p : Reg, p ≠ q → u.regs[p] = t.regs[p]) ∧
      (writesOf i = some q → t.icount = s.icount + 1 → u.regs[q] = t.regs[q]))

/-- Only STORE and CALL change memory, one cell each: STORE the cell that `x[r2]` names, CALL its own
(20_memory.md sections 1 and 5; 43_control_transfer.md section 4). -/
def Obligations.OnlyStoreAndCallChangeOneCell : Prop :=
  ∀ s t : State, Inv s → s.coreMoves = true → step s = .next t →
    ∀ n, t.mem.read n ≠ s.mem.read n →
      InByteRange s.pc ∧
      ((s.fetched.op = 0x01 ∧ InByteRange (readReg (regOf s.fetched.r2) s) ∧
          n = (readReg (regOf s.fetched.r2) s).toNat ∧ t.mem.read n = readReg (regOf s.fetched.r1) s) ∨
        (s.fetched.op = 0x07 ∧ n = s.pc.toNat ∧ t.mem.read n = s.pc + 1))

/-- R170: the two writes of `pc` in the instruction rules come to the single selection of
`program_counter_mux`. A waiting IN is no step, and keeps `pc` (R119). -/
def Obligations.NextPcIsTheMuxSelection : Prop :=
  ∀ s t : State, s.coreMoves = true → step s = .next t →
    if s.atIn = true ∧ t.icount = s.icount then t.pc = s.pc
    else t.pc = pcMux (pcSource s) s

/-- R220: each cause is raised under exactly its condition. -/
def Obligations.EachFaultUnderItsCondition : Prop :=
  (∀ s t : State, s.coreMoves = true → step s = .next t →
    (t.state = .faulted ∧ t.cause = .pcOutOfRange ↔ ¬ InByteRange s.pc) ∧
    (t.state = .faulted ∧ t.cause = .unknownOpcode ↔
      InByteRange s.pc ∧ Undefined s.fetched.op) ∧
    (t.state = .faulted ∧ t.cause = .addressOutOfRange ↔
      InByteRange s.pc ∧
      (((s.fetched.op = 0x00 ∨ s.fetched.op = 0x01) ∧
          ¬ InByteRange (readReg (regOf s.fetched.r2) s)) ∨
        (s.pc = 255 ∧
          (s.fetched.op = 0x06 ∨ s.fetched.op = 0x08 ∨
            (s.fetched.op = 0x09 ∧
              readReg (regOf s.fetched.r1) s = s.fetched.r2.setWidth 32))))) ∧
    (t.state = .faulted ∧ t.cause = .interruptSignal ↔
      InByteRange s.pc ∧ s.fetched.op = 0x0A)) ∧
  Cause.pcOutOfRange.code = 1 ∧ Cause.unknownOpcode.code = 2 ∧
  Cause.addressOutOfRange.code = 3 ∧ Cause.interruptSignal.code = 4

/-- R221: what raising a fault changes, and what it leaves. -/
def Obligations.FaultChangesOnlyStatusAndPc : Prop :=
  ∀ s t : State, s.coreMoves = true → step s = .next t → t.state = .faulted →
    t.cause ≠ .none ∧ t.outValid = false ∧
    observe t =
      { observe s with
        state := .faulted
        cause := t.cause
        pc := if t.cause = .pcOutOfRange then s.pc else s.pc + 1 }

/-- Every step keeps the invariant of the machine: the coupling of `cause` and `state` (10_state.md
section 4), the ranges of the ports (section 5), the handshakes (10_state.md section 9, 44_system_io.md
sections 3 and 4), and IDLE as reset left it (70_reset_and_hazards.md sections 1 to 3). It rests on the
model's own form of memory (log entry 1), its record of outputs, which reset empties (log entry 4), its
end of `out_valid` (log entry 5), and its waiting IN, whose `pc` is at the IN again (log entry 6); a
step is a turn of the host's or of the CORE's (log entry 3). -/
def Obligations.EveryStepKeepsTheInvariant : Prop :=
  ∀ s t : State, Inv s → step s = .next t → Inv t

/-- Every step keeps it that the end state explains why the run ended (60_exceptions.md section 2). -/
def Obligations.EveryStepKeepsTheEndExplained : Prop :=
  ∀ s t : State, EndExplained s → step s = .next t → EndExplained t

/-- The reset state meets both invariants. -/
def Obligations.ResetMeetsTheInvariants : Prop :=
  Inv State.reset ∧ EndExplained State.reset

/-- The values OUT publishes, in step order, one per retired OUT (44_system_io.md section 4); no other
step of the CORE publishes. -/
def Obligations.OutputsAreThePublishedValues : Prop :=
  ∀ s t : State, s.coreMoves = true → step s = .next t →
    if InByteRange s.pc ∧ s.fetched.op = 0x0D then
      t.outputs = s.outputs ++ [readReg (regOf s.fetched.r1) s] ∧
      outSignal t = some (readReg (regOf s.fetched.r1) s)
    else t.outputs = s.outputs ∧ t.outPort = s.outPort ∧ outSignal t = none

/-- What the host offers matters to IN alone (60_exceptions.md section 3); the list of offers is the
model's (log entry 2). -/
def Obligations.OffersMatterToInAlone : Prop :=
  ∀ (s : State) (offers : List Word), s.atIn = false →
    ∃ t, step s = .next t ∧ t.hostOffers = s.hostOffers ∧
      step { s with hostOffers := offers } = .next { t with hostOffers := offers }

/-- A cell written by an instruction is what the very next fetch of it sees (20_memory.md section 6):
a STORE to the next cell replaces the next instruction, whatever word it stores, and a CALL to itself
runs the number it saved. -/
def Obligations.NextFetchSeesTheWrite : Prop :=
  (∀ s : State, Inv s → s.state = .running → s.hostTurns = [] → InByteRange s.pc →
    s.fetched.op = 0x01 → InByteRange (s.pc + 1) → readReg (regOf s.fetched.r2) s = s.pc + 1 →
    ∃ t, step s = .next t ∧ t.icount = s.icount + 1 ∧
      step t = executeWord (readReg (regOf s.fetched.r1) s) { t with pc := s.pc + 2 }) ∧
  (∀ s : State, Inv s → s.state = .running → s.hostTurns = [] → InByteRange s.pc →
    s.fetched.op = 0x07 → readReg (regOf s.fetched.r1) s = s.pc →
    ∃ t, step s = .next t ∧ t.icount = s.icount + 1 ∧
      step t = exec (.load 0 0) { t with pc := s.pc + 1 })

/-! ### Reset, the host, and runs -/

/-- `reset` works from every state and puts every piece of the CORE's state at its reset value
(70_reset_and_hazards.md section 1). What it does to the model's own lists is the model's choice: the
offers stay (log entry 2), one turn is spent and the others stay (log entry 3), and the record of
outputs is emptied (log entry 4). -/
def Obligations.ResetPutsEveryValueBack : Prop :=
  (∀ s : State, s.hostMove = .reset →
    step s = .next
      { State.reset with hostOffers := s.hostOffers, hostTurns := s.hostTurns.tail }) ∧
  State.reset.regs = Vector.replicate 8 0 ∧
  (∀ n, State.reset.mem.read n = 0) ∧
  State.reset.pc = 0 ∧ State.reset.state = .idle ∧ State.reset.cause = .none ∧
  State.reset.icount = 0 ∧ State.reset.inPort = 0 ∧ State.reset.outPort = 0 ∧
  State.reset.inReq = false ∧ State.reset.outValid = false ∧
  statusOf State.reset = ⟨0, 0, 0⟩

/-- The transitions of `halt_fsm`, and no other (70_reset_and_hazards.md section 2). Two things are the
model's choice: a reset empties the record of outputs, which is part of the observation (log entry 4),
and a load or start that the CORE ignores takes the whole step, of a RUNNING CORE too, so that nothing
changes in it (log entry 3). -/
def Obligations.HaltFsmMovesAsTabled : Prop :=
  ∀ s t : State, step s = .next t →
    (s.hostMove = .reset → observe t = observe State.reset) ∧
    (∀ a d, s.hostMove = .load a d →
      t.state = s.state ∧ (s.state ≠ .idle → observe t = observe s) ∧
      (s.state = .idle → observe t = { observe s with mem := t.mem } ∧
        (s.mem.wf = true → ∀ n, t.mem.read n =
          if InByteRange a ∧ n = a.toNat then d else s.mem.read n))) ∧
    (s.hostMove = .start →
      observe t =
        if s.state = .idle then { observe s with state := .running } else observe s) ∧
    (s.hostMove = .quiet → s.state = .running →
      (t.state = .running ∨ t.state = .halted ∨ t.state = .faulted) ∧
      (t.state = .halted ↔ InByteRange s.pc ∧ s.fetched.op = 0x0F) ∧
      (s.cause = .none → (t.state = .faulted ↔ t.cause ≠ .none))) ∧
    (s.hostMove = .quiet → s.state ≠ .running → observe t = observe s)

/-- R255: program load. The premise is the memory's canonical form. -/
def Obligations.ProgramLoadWritesTheCells : Prop :=
  (∀ (s : State) (a d : Word), s.mem.wf = true → s.state = .idle → InByteRange a →
    hostLoad a d s = { s with mem := (hostLoad a d s).mem } ∧
    ∀ n, (hostLoad a d s).mem.read n = if n = a.toNat then d else s.mem.read n) ∧
  (∀ (s : State) (a d : Word), ¬ InByteRange a → hostLoad a d s = s) ∧
  (∀ (s : State) (a d : Word), s.state ≠ .idle → hostLoad a d s = s) ∧
  (∀ (s : State) (words : List Word), s.mem.wf = true → s.state = .idle →
    loadProgram words s = { s with mem := (loadProgram words s).mem } ∧
    loadProgram words s = loadProgram (words.take 256) s ∧
    ∀ n, (loadProgram words s).mem.read n =
      if n < min words.length 256 then words.getD n 0 else s.mem.read n)

/-- `start` in IDLE sets RUNNING and changes nothing else of the CORE; the first step of the run then
fetches at `pc`, which under the machine's invariant is 0 (70_reset_and_hazards.md sections 1 and 3).
That the start takes a whole step and each step spends one of the host's turns is the model's choice
(log entry 3); the end of an earlier `out_valid` in the first step is log entry 5 (DEDUCED). -/
def Obligations.StartSetsRunningOnly : Prop :=
  ∀ s : State, s.hostMove = .start → s.state = .idle →
    ∃ t, step s = .next t ∧
      t = { s with state := .running, hostTurns := s.hostTurns.tail } ∧
      (Inv s → t.pc = 0 ∧ (t.hostMove = .quiet → step t = executeWord (t.mem.read 0) { t with
        pc := 1, outValid := false, hostTurns := t.hostTurns.tail }))

/-- The host reads the status always, with the numbers of 10_state.md section 4, and the end state
only when the CORE is not RUNNING (70_reset_and_hazards.md section 4). -/
def Obligations.HostReadsTheEndStateWhenNotRunning : Prop :=
  ∀ s : State,
    (hostRead s = none ↔ s.state = .running) ∧
    (s.state ≠ .running → hostRead s = some ⟨s.pc, s.regs, s.mem, s.inPort, s.outPort⟩) ∧
    (statusOf s).icount = s.icount ∧
    ((statusOf s).state = 0 ↔ s.state = .idle) ∧ ((statusOf s).state = 1 ↔ s.state = .running) ∧
    ((statusOf s).state = 2 ↔ s.state = .halted) ∧ ((statusOf s).state = 3 ↔ s.state = .faulted) ∧
    ((statusOf s).cause = 0 ↔ s.cause = .none) ∧
    ((statusOf s).cause = 1 ↔ s.cause = .pcOutOfRange) ∧
    ((statusOf s).cause = 2 ↔ s.cause = .unknownOpcode) ∧
    ((statusOf s).cause = 3 ↔ s.cause = .addressOutOfRange) ∧
    ((statusOf s).cause = 4 ↔ s.cause = .interruptSignal) ∧ (statusOf s).cause.toNat ≤ 4

/-- A canonical memory is its cells: two that read alike everywhere are equal (10_state.md
section 6). The form is the model's (log entry 1). -/
def Obligations.MemoriesThatReadAlikeAreEqual : Prop :=
  ∀ m k : Memory, m.wf = true → k.wf = true → (∀ n, m.read n = k.read n) → m = k

/-- An IN that meets unacceptable offers rejects each, with no trace but the offer gone, and then takes
the first acceptable one, whole step at once (44_system_io.md section 3). One offer a step is the
model's choice (log entry 2). -/
def Obligations.InRejectsThenTakes : Prop :=
  ∀ (s : State) (bad : List Word) (v : Word) (rest : List Word),
    s.state = .running → s.hostTurns = [] → InByteRange s.pc → s.fetched.op = 0x0E →
    s.hostOffers = bad ++ v :: rest → (∀ b ∈ bad, ¬ InByteRange b) → InByteRange v →
    ∃ t, runSteps (bad.length + 1) s = .next t ∧
      observe t =
        { observe s with
          pc := s.pc + 1
          icount := s.icount + 1
          regs := (writeReg (regOf s.fetched.r1) v s).regs
          inPort := v } ∧
      t.inReq = false ∧ t.hostOffers = rest

/-- A host that never offers an acceptable value leaves the CORE waiting forever, RUNNING and
otherwise unchanged (40_cycle.md section 7; log entry 2 for the list of offers). -/
def Obligations.UnansweredInWaitsForever : Prop :=
  ∀ (s : State) (k : Nat),
    s.state = .running → s.hostTurns = [] → InByteRange s.pc → s.fetched.op = 0x0E →
    (∀ b ∈ s.hostOffers, ¬ InByteRange b) →
    ∃ t, runSteps (k + 1) s = .next t ∧ observe t = observe s ∧ t.inReq = true

/-- Nothing but reset leaves HALTED and FAULTED, whatever else the host does, and a load or start is then
ignored (44_system_io.md section 1; 60_exceptions.md section 2; 70_reset_and_hazards.md section 2). That
the model's step answers in a stopped CORE (log entry 8), that an ignored load or start takes a step
(log entry 3), and that the offers stand in a list, which such steps keep (log entry 2), are the model's
choices. -/
def Obligations.StoppedCoreStaysStopped : Prop :=
  ∀ (s : State) (k : Nat), s.ended = true → .reset ∉ s.hostTurns →
    ∃ t, runSteps k s = .next t ∧ observe t = observe s ∧ t.hostOffers = s.hostOffers
end

