-- ==== Sys2Proof/Laws/Decode.lean ====
section
/-! SUPPORT. The laws of the encoding: the fields of a packed word, and what each opcode decodes
to. -/

namespace Sys2Proof

section Packed

variable (a : BitVec 8) (b c : BitVec 3) (d : BitVec 16)

theorem op_of_packed : (((a ++ b) ++ (c ++ d)).setWidth 32).extractLsb' 22 8 = a := by
  apply BitVec.eq_of_getLsbD_eq
  intro i hi
  simp only [BitVec.getLsbD_extractLsb', BitVec.getLsbD_setWidth, BitVec.getLsbD_append]
  rw [if_neg (by omega), if_neg (by omega), show 22 + i - (3 + 16) - 3 = i by omega]
  simp [hi]; omega

theorem r1_of_packed : (((a ++ b) ++ (c ++ d)).setWidth 32).extractLsb' 19 3 = b := by
  apply BitVec.eq_of_getLsbD_eq
  intro i hi
  simp only [BitVec.getLsbD_extractLsb', BitVec.getLsbD_setWidth, BitVec.getLsbD_append]
  rw [if_neg (by omega), if_pos (by omega), show 19 + i - (3 + 16) = i by omega]
  simp [hi]; omega

theorem r2_of_packed : (((a ++ b) ++ (c ++ d)).setWidth 32).extractLsb' 16 3 = c := by
  apply BitVec.eq_of_getLsbD_eq
  intro i hi
  simp only [BitVec.getLsbD_extractLsb', BitVec.getLsbD_setWidth, BitVec.getLsbD_append]
  rw [if_pos (by omega), if_neg (by omega), show 16 + i - 16 = i by omega]
  simp [hi]; omega

theorem imm_of_packed : (((a ++ b) ++ (c ++ d)).setWidth 32).extractLsb' 0 16 = d := by
  apply BitVec.eq_of_getLsbD_eq
  intro i hi
  simp only [BitVec.getLsbD_extractLsb', BitVec.getLsbD_setWidth, BitVec.getLsbD_append]
  rw [if_pos (by omega), if_pos (by omega), show 0 + i = i by omega]
  simp [hi]; omega

end Packed

/-- Cutting a packed word gives the fields it was packed from. -/
theorem fieldsOf_packWord (op r1 r2 imm : Nat) :
    fieldsOf (packWord op r1 r2 imm) =
      ⟨BitVec.ofNat 8 op, BitVec.ofNat 3 r1, BitVec.ofNat 3 r2, BitVec.ofNat 16 imm⟩ :=
  (Fields.mk.injEq ..).mpr
    ⟨op_of_packed .., r1_of_packed .., r2_of_packed .., imm_of_packed ..⟩

/-- The register that the field packed from a register number names. -/
theorem regOf_ofNat (r : Reg) : regOf (BitVec.ofNat 3 r) = r := by
  revert r; decide

/-- The same in the form that `simp` gives a packed register number. -/
@[simp] theorem regOf_ofFin (r : Reg) : regOf (BitVec.ofFin r) = r := rfl

/-- The third register field of a packed ADD or SUB. -/
theorem r3_ofNat (r : Reg) : regOf ((BitVec.ofNat 16 r).extractLsb' 0 3) = r := by
  revert r; decide

/-- The outcome of the decoder depends on the fields alone. -/
theorem decode_eq (w : Word) : decode w = decodeFields (fieldsOf w) := rfl

/-- The fields spell the instruction: its opcode and its operands (R82, R86). -/
def SpelledBy (f : Fields) : Instr → Prop
  | .load rd ra => f.op = 0x00 ∧ rd = regOf f.r1 ∧ ra = regOf f.r2
  | .store rs ra => f.op = 0x01 ∧ rs = regOf f.r1 ∧ ra = regOf f.r2
  | .add rd rs1 rs2 => f.op = 0x02 ∧ rd = regOf f.r1 ∧ rs1 = regOf f.r2 ∧ rs2 = regOf f.r3
  | .sub rd rs1 rs2 => f.op = 0x03 ∧ rd = regOf f.r1 ∧ rs1 = regOf f.r2 ∧ rs2 = regOf f.r3
  | .mov rd rs => f.op = 0x04 ∧ rd = regOf f.r1 ∧ rs = regOf f.r2
  | .cmp ra rb => f.op = 0x05 ∧ ra = regOf f.r1 ∧ rb = regOf f.r2
  | .jmp => f.op = 0x06
  | .call rt => f.op = 0x07 ∧ rt = regOf f.r1
  | .ret => f.op = 0x08
  | .beq r k => f.op = 0x09 ∧ r = regOf f.r1 ∧ k = f.r2.toNat
  | .int => f.op = 0x0A
  | .ldi rd imm => f.op = 0x0B ∧ rd = regOf f.r1 ∧ imm = f.imm.toNat
  | .out rs => f.op = 0x0D ∧ rs = regOf f.r1
  | .inp rd => f.op = 0x0E ∧ rd = regOf f.r1
  | .halt => f.op = 0x0F

theorem op_of_toNat {n : Nat} {op : BitVec 8} (h : op.toNat = n) : op = BitVec.ofNat 8 n := by
  apply BitVec.eq_of_toNat_eq; simp [← h]

/-- When the decoder gives an instruction, the fields spell it. -/
theorem spelledBy_of_decode {f : Fields} {i : Instr} (h : decodeFields f = .ok i) :
    SpelledBy f i := by
  unfold decodeFields at h
  split at h
  all_goals first
    | contradiction
    | (rename_i e; cases h; have := op_of_toNat e; simp [SpelledBy, this])

/-- When it gives none, the opcode is one of R89's. -/
theorem undefined_of_decode {f : Fields} {e : DecodeError} (h : decodeFields f = .error e) :
    f.op = 0x0C ∨ 0x10 ≤ f.op.toNat := by
  unfold decodeFields at h
  have := f.op.isLt
  rw [← BitVec.toNat_inj]
  split at h <;> simp_all
  omega

/-- `encodeFields` on fields that fit. -/
theorem encodeFields_ok {op r1 r2 imm : Nat} (h0 : op ≤ 255) (h1 : r1 ≤ 7) (h2 : r2 ≤ 7)
    (h3 : imm ≤ 0xFFFF) : encodeFields op r1 r2 imm = .ok (packWord op r1 r2 imm) := by
  simp only [encodeFields]
  rw [if_neg (by omega), if_neg (by omega), if_neg (by omega), if_neg (by omega)]

/-- When `encodeFields` gives a word, the fields fit and it is the packed word. -/
theorem encodeFields_eq_ok {op r1 r2 imm : Nat} {w : Word}
    (h : encodeFields op r1 r2 imm = .ok w) :
    op ≤ 255 ∧ r1 ≤ 7 ∧ r2 ≤ 7 ∧ imm ≤ 0xFFFF ∧ w = packWord op r1 r2 imm := by
  unfold encodeFields at h
  split_ifs at h with h0 h1 h2 h3
  exact ⟨by omega, by omega, by omega, by omega, by cases h; rfl⟩

end Sys2Proof
end

