-- ==== Sys2Proof/Laws/Memory.lean ====
section
/-! SUPPORT. The laws of the memory: read after write, and that every memory operation keeps the
canonical form. -/

namespace Sys2Proof.Machine

/-! ### Ranges -/

/-- The signed test of R65 and R112 as a bound on the unsigned reading. -/
theorem inRange_iff (a : Word) : inRange a = true ↔ a.toNat < 256 := by
  have h := a.isLt
  simp only [inRange, Config.memorySize, Bool.and_eq_true, decide_eq_true_eq, BitVec.toInt]
  split <;> omega

theorem inRange_eq_false_iff (a : Word) : inRange a = false ↔ 256 ≤ a.toNat := by
  rw [← Bool.not_eq_true, inRange_iff]; omega

/-- The signed test of R207 as a bound on the unsigned reading. -/
theorem inputOk_iff (v : Word) : inputOk v = true ↔ v.toNat ≤ 255 := by
  have h := v.isLt
  simp only [inputOk, Config.inputMax, Bool.and_eq_true, decide_eq_true_eq, BitVec.toInt]
  split <;> omega

/-- The cell after one in range is at the next number: the increment does not wrap (R27). -/
theorem toNat_succ_of_inRange {a : Word} (h : inRange a = true) :
    (a + 1).toNat = a.toNat + 1 := by
  have := (inRange_iff a).1 h
  change (a + 1#32).toNat = _
  simp only [BitVec.toNat_add, BitVec.toNat_ofNat]
  omega

/-! ### The canonical form -/

theorem Memory.wfFrom_nil (lo : Nat) : Memory.wfFrom lo [] = true := rfl

theorem Memory.wfFrom_cons (lo : Nat) (c : Nat × Word) (m : Memory) :
    Memory.wfFrom lo (c :: m) = true ↔
      lo ≤ c.1 ∧ c.1 < 256 ∧ c.2 ≠ 0#32 ∧ Memory.wfFrom (c.1 + 1) m = true := by
  simp [Memory.wfFrom, Config.memorySize, and_assoc]

theorem Memory.read_nil (a : Nat) : Memory.read [] a = 0#32 := rfl

theorem Memory.read_cons (c : Nat × Word) (m : Memory) (a : Nat) :
    Memory.read (c :: m) a = if a = c.1 then c.2 else Memory.read m a := rfl

theorem Memory.wfFrom_mono {m : Memory} {lo hi : Nat} (h : lo ≤ hi)
    (hm : Memory.wfFrom hi m = true) : Memory.wfFrom lo m = true := by
  cases m with
  | nil => rfl
  | cons c m =>
    rw [Memory.wfFrom_cons] at hm ⊢
    exact ⟨Nat.le_trans h hm.1, hm.2⟩

/-- No cell below the start of a canonical memory is listed. -/
theorem Memory.read_below {m : Memory} {lo a : Nat} (hm : Memory.wfFrom lo m = true)
    (ha : a < lo) : m.read a = 0#32 := by
  induction m generalizing lo with
  | nil => rfl
  | cons c m ih =>
    rw [Memory.wfFrom_cons] at hm
    rw [Memory.read_cons, if_neg (by omega)]
    exact ih hm.2.2.2 (by omega)

/-- A canonical memory lists no address outside 0 to 255. -/
theorem Memory.read_outside {m : Memory} {lo a : Nat} (hm : Memory.wfFrom lo m = true)
    (ha : 256 ≤ a) : m.read a = 0#32 := by
  induction m generalizing lo with
  | nil => rfl
  | cons c m ih =>
    rw [Memory.wfFrom_cons] at hm
    rw [Memory.read_cons, if_neg (by omega)]
    exact ih hm.2.2.2

theorem Memory.write_wfFrom {m : Memory} {lo a : Nat} (v : Word)
    (hm : Memory.wfFrom lo m = true) (hlo : lo ≤ a) (ha : a < 256) :
    Memory.wfFrom lo (m.write a v) = true := by
  induction m generalizing lo with
  | nil =>
    unfold Memory.write
    split
    · rfl
    · next hv => exact (Memory.wfFrom_cons _ _ _).2 ⟨hlo, ha, hv, rfl⟩
  | cons c m ih =>
    have ⟨h1, h2, h3, h4⟩ := (Memory.wfFrom_cons _ _ _).1 hm
    unfold Memory.write
    split
    · next hlt =>
      split
      · exact hm
      · next hv =>
        refine (Memory.wfFrom_cons _ _ _).2 ⟨hlo, ha, hv, ?_⟩
        exact (Memory.wfFrom_cons _ _ _).2 ⟨hlt, h2, h3, h4⟩
    · split
      · next heq =>
        split
        · exact Memory.wfFrom_mono (by omega) h4
        · next hv => exact (Memory.wfFrom_cons _ _ _).2 ⟨hlo, ha, hv, heq ▸ h4⟩
      · exact (Memory.wfFrom_cons _ _ _).2 ⟨h1, h2, h3, ih h4 (by omega)⟩

/-- Writing a cell keeps the canonical form. -/
theorem Memory.write_wf {m : Memory} {a : Nat} (v : Word) (hm : m.wf = true) (ha : a < 256) :
    (m.write a v).wf = true :=
  Memory.write_wfFrom v hm (Nat.zero_le a) ha

/-- Writing at a 32-bit address keeps the canonical form, whatever the address. -/
theorem Memory.writeAt_wf {m : Memory} (a v : Word) (hm : m.wf = true) :
    (m.writeAt a v).wf = true := by
  unfold Memory.writeAt
  split
  · next h => exact Memory.write_wf v hm ((inRange_iff a).1 h)
  · exact hm

/-! ### Read after write -/

theorem Memory.read_writeFrom {m : Memory} {lo : Nat} (a b : Nat) (v : Word)
    (hm : Memory.wfFrom lo m = true) :
    (m.write a v).read b = if b = a then v else m.read b := by
  induction m generalizing lo with
  | nil =>
    unfold Memory.write
    split
    · next hv => simp only [Memory.read_nil, hv, ite_self]
    · exact Memory.read_cons _ _ _
  | cons c m ih =>
    have ⟨_, _, _, h4⟩ := (Memory.wfFrom_cons _ _ _).1 hm
    have low : ∀ x, x < c.1 + 1 → Memory.read m x = 0#32 := fun x => Memory.read_below h4
    unfold Memory.write
    split
    · next hlt =>
      split
      · next hv =>
        by_cases hb : b = a
        · rw [if_pos hb, Memory.read_cons, if_neg (by omega), low b (by omega), hv]
        · rw [if_neg hb]
      · exact Memory.read_cons _ _ _
    · split
      · next heq =>
        split
        · next hv =>
          by_cases hb : b = a
          · rw [if_pos hb, low b (by omega), hv]
          · rw [if_neg hb, Memory.read_cons, if_neg (by omega)]
        · by_cases hb : b = a
          · rw [Memory.read_cons, if_pos hb, if_pos hb]
          · rw [Memory.read_cons, if_neg hb, if_neg hb, Memory.read_cons, if_neg (by omega)]
      · rw [Memory.read_cons, Memory.read_cons, ih h4]
        by_cases hb : b = c.1
        · rw [if_pos hb, if_pos hb, if_neg (by omega)]
        · rw [if_neg hb, if_neg hb]

/-- A read after a write: the value written at that cell, the old contents at every other. -/
theorem Memory.read_write {m : Memory} (a b : Nat) (v : Word) (hm : m.wf = true) :
    (m.write a v).read b = if b = a then v else m.read b :=
  Memory.read_writeFrom a b v hm

/-- The same through 32-bit addresses: a write out of range changes no cell. -/
theorem Memory.read_writeAt {m : Memory} (a v : Word) (b : Nat) (hm : m.wf = true) :
    (m.writeAt a v).read b = if inRange a = true ∧ b = a.toNat then v else m.read b := by
  unfold Memory.writeAt
  split
  · next h => simp only [Memory.read_write _ _ _ hm, h, true_and]
  · next h => simp only [h, Bool.false_eq_true, false_and, if_false]

end Sys2Proof.Machine
end

