-- ==== Sys2Proof/Laws/State.lean ====
section
/-! SUPPORT. What each update of the state does to each field: one lemma per field per update, each
true by `rfl`, so that no later proof unfolds a record update. -/

namespace Sys2Proof.Machine

section writeReg

variable (s : State) (r : Reg) (v : Word)

@[simp] theorem writeReg_regs : (writeReg r v s).regs = s.regs.set r v := rfl
@[simp] theorem writeReg_pc : (writeReg r v s).pc = s.pc := rfl
@[simp] theorem writeReg_state : (writeReg r v s).state = s.state := rfl
@[simp] theorem writeReg_cause : (writeReg r v s).cause = s.cause := rfl
@[simp] theorem writeReg_icount : (writeReg r v s).icount = s.icount := rfl
@[simp] theorem writeReg_mem : (writeReg r v s).mem = s.mem := rfl
@[simp] theorem writeReg_inPort : (writeReg r v s).inPort = s.inPort := rfl
@[simp] theorem writeReg_outPort : (writeReg r v s).outPort = s.outPort := rfl
@[simp] theorem writeReg_inReq : (writeReg r v s).inReq = s.inReq := rfl
@[simp] theorem writeReg_outValid : (writeReg r v s).outValid = s.outValid := rfl
@[simp] theorem writeReg_outputs : (writeReg r v s).outputs = s.outputs := rfl
@[simp] theorem writeReg_hostOffers : (writeReg r v s).hostOffers = s.hostOffers := rfl
@[simp] theorem writeReg_hostTurns : (writeReg r v s).hostTurns = s.hostTurns := rfl

end writeReg

section setPc

variable (s : State) (t : Word)

@[simp] theorem setPc_regs : (setPc t s).regs = s.regs := rfl
@[simp] theorem setPc_pc : (setPc t s).pc = t := rfl
@[simp] theorem setPc_state : (setPc t s).state = s.state := rfl
@[simp] theorem setPc_cause : (setPc t s).cause = s.cause := rfl
@[simp] theorem setPc_icount : (setPc t s).icount = s.icount := rfl
@[simp] theorem setPc_mem : (setPc t s).mem = s.mem := rfl
@[simp] theorem setPc_inPort : (setPc t s).inPort = s.inPort := rfl
@[simp] theorem setPc_outPort : (setPc t s).outPort = s.outPort := rfl
@[simp] theorem setPc_inReq : (setPc t s).inReq = s.inReq := rfl
@[simp] theorem setPc_outValid : (setPc t s).outValid = s.outValid := rfl
@[simp] theorem setPc_outputs : (setPc t s).outputs = s.outputs := rfl
@[simp] theorem setPc_hostOffers : (setPc t s).hostOffers = s.hostOffers := rfl
@[simp] theorem setPc_hostTurns : (setPc t s).hostTurns = s.hostTurns := rfl

end setPc

section advancePc

variable (s : State)

@[simp] theorem advancePc_regs : (advancePc s).regs = s.regs := rfl
@[simp] theorem advancePc_pc : (advancePc s).pc = s.pc + 1 := rfl
@[simp] theorem advancePc_state : (advancePc s).state = s.state := rfl
@[simp] theorem advancePc_cause : (advancePc s).cause = s.cause := rfl
@[simp] theorem advancePc_icount : (advancePc s).icount = s.icount := rfl
@[simp] theorem advancePc_mem : (advancePc s).mem = s.mem := rfl
@[simp] theorem advancePc_inPort : (advancePc s).inPort = s.inPort := rfl
@[simp] theorem advancePc_outPort : (advancePc s).outPort = s.outPort := rfl
@[simp] theorem advancePc_inReq : (advancePc s).inReq = s.inReq := rfl
@[simp] theorem advancePc_outValid : (advancePc s).outValid = s.outValid := rfl
@[simp] theorem advancePc_outputs : (advancePc s).outputs = s.outputs := rfl
@[simp] theorem advancePc_hostOffers : (advancePc s).hostOffers = s.hostOffers := rfl
@[simp] theorem advancePc_hostTurns : (advancePc s).hostTurns = s.hostTurns := rfl

end advancePc

section writeCell

variable (s : State) (a v : Word)

@[simp] theorem writeCell_regs : (writeCell a v s).regs = s.regs := rfl
@[simp] theorem writeCell_pc : (writeCell a v s).pc = s.pc := rfl
@[simp] theorem writeCell_state : (writeCell a v s).state = s.state := rfl
@[simp] theorem writeCell_cause : (writeCell a v s).cause = s.cause := rfl
@[simp] theorem writeCell_icount : (writeCell a v s).icount = s.icount := rfl
@[simp] theorem writeCell_mem : (writeCell a v s).mem = s.mem.writeAt a v := rfl
@[simp] theorem writeCell_inPort : (writeCell a v s).inPort = s.inPort := rfl
@[simp] theorem writeCell_outPort : (writeCell a v s).outPort = s.outPort := rfl
@[simp] theorem writeCell_inReq : (writeCell a v s).inReq = s.inReq := rfl
@[simp] theorem writeCell_outValid : (writeCell a v s).outValid = s.outValid := rfl
@[simp] theorem writeCell_outputs : (writeCell a v s).outputs = s.outputs := rfl
@[simp] theorem writeCell_hostOffers : (writeCell a v s).hostOffers = s.hostOffers := rfl
@[simp] theorem writeCell_hostTurns : (writeCell a v s).hostTurns = s.hostTurns := rfl

end writeCell

section raiseFault

variable (s : State) (c : Cause)

@[simp] theorem raiseFault_regs : (raiseFault c s).regs = s.regs := rfl
@[simp] theorem raiseFault_pc : (raiseFault c s).pc = s.pc := rfl
@[simp] theorem raiseFault_state : (raiseFault c s).state = .faulted := rfl
@[simp] theorem raiseFault_cause : (raiseFault c s).cause = c := rfl
@[simp] theorem raiseFault_icount : (raiseFault c s).icount = s.icount := rfl
@[simp] theorem raiseFault_mem : (raiseFault c s).mem = s.mem := rfl
@[simp] theorem raiseFault_inPort : (raiseFault c s).inPort = s.inPort := rfl
@[simp] theorem raiseFault_outPort : (raiseFault c s).outPort = s.outPort := rfl
@[simp] theorem raiseFault_inReq : (raiseFault c s).inReq = s.inReq := rfl
@[simp] theorem raiseFault_outValid : (raiseFault c s).outValid = s.outValid := rfl
@[simp] theorem raiseFault_outputs : (raiseFault c s).outputs = s.outputs := rfl
@[simp] theorem raiseFault_hostOffers : (raiseFault c s).hostOffers = s.hostOffers := rfl
@[simp] theorem raiseFault_hostTurns : (raiseFault c s).hostTurns = s.hostTurns := rfl

end raiseFault

section haltRun

variable (s : State)

@[simp] theorem haltRun_regs : (haltRun s).regs = s.regs := rfl
@[simp] theorem haltRun_pc : (haltRun s).pc = s.pc := rfl
@[simp] theorem haltRun_state : (haltRun s).state = .halted := rfl
@[simp] theorem haltRun_cause : (haltRun s).cause = s.cause := rfl
@[simp] theorem haltRun_icount : (haltRun s).icount = s.icount := rfl
@[simp] theorem haltRun_mem : (haltRun s).mem = s.mem := rfl
@[simp] theorem haltRun_inPort : (haltRun s).inPort = s.inPort := rfl
@[simp] theorem haltRun_outPort : (haltRun s).outPort = s.outPort := rfl
@[simp] theorem haltRun_inReq : (haltRun s).inReq = s.inReq := rfl
@[simp] theorem haltRun_outValid : (haltRun s).outValid = s.outValid := rfl
@[simp] theorem haltRun_outputs : (haltRun s).outputs = s.outputs := rfl
@[simp] theorem haltRun_hostOffers : (haltRun s).hostOffers = s.hostOffers := rfl
@[simp] theorem haltRun_hostTurns : (haltRun s).hostTurns = s.hostTurns := rfl

end haltRun

section retire

variable (s : State)

@[simp] theorem retire_regs : (retire s).regs = s.regs := rfl
@[simp] theorem retire_pc : (retire s).pc = s.pc := rfl
@[simp] theorem retire_state : (retire s).state = s.state := rfl
@[simp] theorem retire_cause : (retire s).cause = s.cause := rfl
@[simp] theorem retire_icount : (retire s).icount = s.icount + 1 := rfl
@[simp] theorem retire_mem : (retire s).mem = s.mem := rfl
@[simp] theorem retire_inPort : (retire s).inPort = s.inPort := rfl
@[simp] theorem retire_outPort : (retire s).outPort = s.outPort := rfl
@[simp] theorem retire_inReq : (retire s).inReq = s.inReq := rfl
@[simp] theorem retire_outValid : (retire s).outValid = s.outValid := rfl
@[simp] theorem retire_outputs : (retire s).outputs = s.outputs := rfl
@[simp] theorem retire_hostOffers : (retire s).hostOffers = s.hostOffers := rfl
@[simp] theorem retire_hostTurns : (retire s).hostTurns = s.hostTurns := rfl

end retire

section hold

variable (s : State)

@[simp] theorem hold_regs : (hold s).regs = s.regs := rfl
@[simp] theorem hold_pc : (hold s).pc = s.pc - 1 := rfl
@[simp] theorem hold_state : (hold s).state = s.state := rfl
@[simp] theorem hold_cause : (hold s).cause = s.cause := rfl
@[simp] theorem hold_icount : (hold s).icount = s.icount := rfl
@[simp] theorem hold_mem : (hold s).mem = s.mem := rfl
@[simp] theorem hold_inPort : (hold s).inPort = s.inPort := rfl
@[simp] theorem hold_outPort : (hold s).outPort = s.outPort := rfl
@[simp] theorem hold_inReq : (hold s).inReq = true := rfl
@[simp] theorem hold_outValid : (hold s).outValid = s.outValid := rfl
@[simp] theorem hold_outputs : (hold s).outputs = s.outputs := rfl
@[simp] theorem hold_hostOffers : (hold s).hostOffers = s.hostOffers := rfl
@[simp] theorem hold_hostTurns : (hold s).hostTurns = s.hostTurns := rfl

end hold

section outputPut

variable (s : State) (v : Word)

@[simp] theorem outputPut_regs : (outputPut v s).regs = s.regs := rfl
@[simp] theorem outputPut_pc : (outputPut v s).pc = s.pc := rfl
@[simp] theorem outputPut_state : (outputPut v s).state = s.state := rfl
@[simp] theorem outputPut_cause : (outputPut v s).cause = s.cause := rfl
@[simp] theorem outputPut_icount : (outputPut v s).icount = s.icount := rfl
@[simp] theorem outputPut_mem : (outputPut v s).mem = s.mem := rfl
@[simp] theorem outputPut_inPort : (outputPut v s).inPort = s.inPort := rfl
@[simp] theorem outputPut_outPort : (outputPut v s).outPort = v := rfl
@[simp] theorem outputPut_inReq : (outputPut v s).inReq = s.inReq := rfl
@[simp] theorem outputPut_outValid : (outputPut v s).outValid = true := rfl
@[simp] theorem outputPut_outputs : (outputPut v s).outputs = s.outputs ++ [v] := rfl
@[simp] theorem outputPut_hostOffers : (outputPut v s).hostOffers = s.hostOffers := rfl
@[simp] theorem outputPut_hostTurns : (outputPut v s).hostTurns = s.hostTurns := rfl

end outputPut

section endPublish

variable (s : State)

@[simp] theorem endPublish_regs : (endPublish s).regs = s.regs := rfl
@[simp] theorem endPublish_pc : (endPublish s).pc = s.pc := rfl
@[simp] theorem endPublish_state : (endPublish s).state = s.state := rfl
@[simp] theorem endPublish_cause : (endPublish s).cause = s.cause := rfl
@[simp] theorem endPublish_icount : (endPublish s).icount = s.icount := rfl
@[simp] theorem endPublish_mem : (endPublish s).mem = s.mem := rfl
@[simp] theorem endPublish_inPort : (endPublish s).inPort = s.inPort := rfl
@[simp] theorem endPublish_outPort : (endPublish s).outPort = s.outPort := rfl
@[simp] theorem endPublish_inReq : (endPublish s).inReq = s.inReq := rfl
@[simp] theorem endPublish_outValid : (endPublish s).outValid = false := rfl
@[simp] theorem endPublish_outputs : (endPublish s).outputs = s.outputs := rfl
@[simp] theorem endPublish_hostOffers : (endPublish s).hostOffers = s.hostOffers := rfl
@[simp] theorem endPublish_hostTurns : (endPublish s).hostTurns = s.hostTurns := rfl

end endPublish

section hostReset

variable (s : State)

@[simp] theorem hostReset_regs : (hostReset s).regs = State.reset.regs := rfl
@[simp] theorem hostReset_pc : (hostReset s).pc = State.reset.pc := rfl
@[simp] theorem hostReset_state : (hostReset s).state = State.reset.state := rfl
@[simp] theorem hostReset_cause : (hostReset s).cause = State.reset.cause := rfl
@[simp] theorem hostReset_icount : (hostReset s).icount = State.reset.icount := rfl
@[simp] theorem hostReset_mem : (hostReset s).mem = State.reset.mem := rfl
@[simp] theorem hostReset_inPort : (hostReset s).inPort = State.reset.inPort := rfl
@[simp] theorem hostReset_outPort : (hostReset s).outPort = State.reset.outPort := rfl
@[simp] theorem hostReset_inReq : (hostReset s).inReq = State.reset.inReq := rfl
@[simp] theorem hostReset_outValid : (hostReset s).outValid = State.reset.outValid := rfl
@[simp] theorem hostReset_outputs : (hostReset s).outputs = State.reset.outputs := rfl
@[simp] theorem hostReset_hostOffers : (hostReset s).hostOffers = s.hostOffers := rfl
@[simp] theorem hostReset_hostTurns : (hostReset s).hostTurns = s.hostTurns := rfl

end hostReset

section readReg

variable (s : State) (r : Reg)

@[simp] theorem readReg_setPc (t : Word) : readReg r (setPc t s) = readReg r s := rfl
@[simp] theorem readReg_advancePc : readReg r (advancePc s) = readReg r s := rfl
@[simp] theorem readReg_writeCell (a v : Word) : readReg r (writeCell a v s) = readReg r s := rfl
@[simp] theorem readReg_raiseFault (c : Cause) : readReg r (raiseFault c s) = readReg r s := rfl
@[simp] theorem readReg_haltRun : readReg r (haltRun s) = readReg r s := rfl
@[simp] theorem readReg_retire : readReg r (retire s) = readReg r s := rfl
@[simp] theorem readReg_hold : readReg r (hold s) = readReg r s := rfl
@[simp] theorem readReg_outputPut (v : Word) : readReg r (outputPut v s) = readReg r s := rfl
@[simp] theorem readReg_endPublish : readReg r (endPublish s) = readReg r s := rfl

end readReg

end Sys2Proof.Machine
end

