-- ==== Sys2Proof/Laws/Ops.lean ====
section
/-! SUPPORT. What each shared operation can do, said once. -/

namespace Sys2Proof.Machine

/-! ### Registers -/

/-- A register read after a register write. -/
theorem readReg_writeReg (q r : Reg) (v : Word) (s : State) :
    readReg q (writeReg r v s) = if q = r then v else readReg q s := by
  simp [readReg, writeReg, Vector.getElem_set, Fin.ext_iff, eq_comm]

/-- The same in the spelling of the statements. -/
theorem regs_set_get (regs : Vector Word 8) (r q : Reg) (v : Word) :
    (regs.set r v)[q] = if q = r then v else regs[q] := by
  simp [Vector.getElem_set, Fin.ext_iff, eq_comm]

/-! ### Data accesses -/

theorem dataRead_inRange {ea : Word} {s : State} (h : inRange ea = true) :
    dataRead ea s = some (readCell ea s) := by simp [dataRead, h]

theorem dataRead_outside {ea : Word} {s : State} (h : inRange ea = false) :
    dataRead ea s = none := by simp [dataRead, h]

theorem dataWrite_inRange {ea v : Word} {s : State} (h : inRange ea = true) :
    dataWrite ea v s = some (writeCell ea v s) := by simp [dataWrite, h]

theorem dataWrite_outside {ea v : Word} {s : State} (h : inRange ea = false) :
    dataWrite ea v s = none := by simp [dataWrite, h]

/-- The two ends of a transfer through the inline operand word. -/
theorem jumpInline_cases (s : State) :
    (inRange s.pc = true ∧ jumpInline s = retire (setPc (readCell s.pc s) s)) ∨
    (inRange s.pc = false ∧ jumpInline s = raiseFault .addressOutOfRange s) := by
  cases h : inRange s.pc with
  | true => exact .inl ⟨rfl, by simp [jumpInline, inlineAddress, dataRead_inRange h]⟩
  | false => exact .inr ⟨rfl, by simp [jumpInline, inlineAddress, dataRead_outside h]⟩

/-! ### The ports -/

/-- The three ends of `InputTake()`. -/
theorem inputTake_cases (s : State) :
    (s.hostOffers = [] ∧ inputTake s = .waiting s) ∨
    (∃ v rest, s.hostOffers = v :: rest ∧ inputOk v = false ∧
      inputTake s = .waiting { s with hostOffers := rest }) ∨
    (∃ v rest, s.hostOffers = v :: rest ∧ inputOk v = true ∧
      inputTake s = .accepted v { s with hostOffers := rest, inReq := false, inPort := v }) := by
  cases h : s.hostOffers with
  | nil => exact .inl ⟨rfl, by simp [inputTake, h]⟩
  | cons v rest =>
    cases hv : inputOk v with
    | false => exact .inr (.inl ⟨v, rest, rfl, hv, by simp [inputTake, h, hv]⟩)
    | true => exact .inr (.inr ⟨v, rest, rfl, hv, by simp [inputTake, h, hv]⟩)

/-! ### The host -/

theorem hostLoad_idle {a v : Word} {s : State} (h : s.state = .idle) :
    hostLoad a v s = writeCell a v s := by simp [hostLoad, h]

theorem hostLoad_ignored {a v : Word} {s : State} (h : s.state ≠ .idle) : hostLoad a v s = s := by
  unfold hostLoad; split <;> simp_all

theorem hostStart_idle {s : State} (h : s.state = .idle) :
    hostStart s = { s with state := .running } := by simp [hostStart, h]

theorem hostStart_ignored {s : State} (h : s.state ≠ .idle) : hostStart s = s := by
  unfold hostStart; split <;> simp_all

end Sys2Proof.Machine
end

