-- ==== Sys2Proof/Laws/Exec.lean ====
section
/-! SUPPORT. What the execute phase of each instruction can do, said once: `Effect i s t` lists every
end of `exec i s`, guards included. -/

namespace Sys2Proof.Machine

/-- `t` is an end of the execute phase of `i` from `s`. -/
inductive Effect : Instr → State → State → Prop where
  | load {rd ra s} : inRange (readReg ra s) = true →
      Effect (.load rd ra) s (retire (writeReg rd (readCell (readReg ra s) s) s))
  | loadFault {rd ra s} : inRange (readReg ra s) = false →
      Effect (.load rd ra) s (raiseFault .addressOutOfRange s)
  | store {rs ra s} : inRange (readReg ra s) = true →
      Effect (.store rs ra) s (retire (writeCell (readReg ra s) (readReg rs s) s))
  | storeFault {rs ra s} : inRange (readReg ra s) = false →
      Effect (.store rs ra) s (raiseFault .addressOutOfRange s)
  | add {rd rs1 rs2 s} :
      Effect (.add rd rs1 rs2) s (retire (writeReg rd (readReg rs1 s + readReg rs2 s) s))
  | sub {rd rs1 rs2 s} :
      Effect (.sub rd rs1 rs2) s (retire (writeReg rd (readReg rs1 s - readReg rs2 s) s))
  | mov {rd rs s} : Effect (.mov rd rs) s (retire (writeReg rd (readReg rs s) s))
  | ldi {rd imm s} : Effect (.ldi rd imm) s (retire (writeReg rd (ldiValue imm) s))
  | cmp {ra rb s} : Effect (.cmp ra rb) s (retire s)
  | jmp {s} : inRange s.pc = true → Effect .jmp s (retire (setPc (readCell s.pc s) s))
  | jmpFault {s} : inRange s.pc = false → Effect .jmp s (raiseFault .addressOutOfRange s)
  | ret {s} : inRange s.pc = true → Effect .ret s (retire (setPc (readCell s.pc s) s))
  | retFault {s} : inRange s.pc = false → Effect .ret s (raiseFault .addressOutOfRange s)
  | beqTaken {r k s} : aluEq (readReg r s) k = true → inRange s.pc = true →
      Effect (.beq r k) s (retire (setPc (readCell s.pc s) s))
  | beqFault {r k s} : aluEq (readReg r s) k = true → inRange s.pc = false →
      Effect (.beq r k) s (raiseFault .addressOutOfRange s)
  | beqPast {r k s} : aluEq (readReg r s) k = false →
      Effect (.beq r k) s (retire (setPc (s.pc + 1) s))
  | call {rt s} :
      Effect (.call rt) s (retire (setPc (readReg rt s) (writeCell (s.pc - 1) s.pc s)))
  | halt {s} : Effect .halt s (haltRun s)
  | int {s} : Effect .int s (raiseFault .interruptSignal s)
  | out {rs s} : Effect (.out rs) s (retire (outputPut (readReg rs s) s))
  | inpSilent {rd s} : s.hostOffers = [] → Effect (.inp rd) s (hold s)
  | inpRejects {rd s v rest} : s.hostOffers = v :: rest → inputOk v = false →
      Effect (.inp rd) s (hold { s with hostOffers := rest })
  | inpAccepts {rd s v rest} : s.hostOffers = v :: rest → inputOk v = true →
      Effect (.inp rd) s
        (retire (writeReg rd v { s with hostOffers := rest, inReq := false, inPort := v }))

/-- The execute phase always ends in a next state, and that state is one of the listed ends. -/
theorem exec_effect (i : Instr) (s : State) : ∃ t, exec i s = .next t ∧ Effect i s t := by
  cases i with
  | load rd ra =>
    simp only [exec, execLoad, effectiveAddress]
    cases h : inRange (readReg ra s) with
    | true => exact ⟨_, by rw [dataRead_inRange h], .load h⟩
    | false => exact ⟨_, by rw [dataRead_outside h], .loadFault h⟩
  | store rs ra =>
    simp only [exec, execStore, effectiveAddress]
    cases h : inRange (readReg ra s) with
    | true => exact ⟨_, by rw [dataWrite_inRange h], .store h⟩
    | false => exact ⟨_, by rw [dataWrite_outside h], .storeFault h⟩
  | add rd rs1 rs2 => exact ⟨_, rfl, .add⟩
  | sub rd rs1 rs2 => exact ⟨_, rfl, .sub⟩
  | mov rd rs => exact ⟨_, rfl, .mov⟩
  | cmp ra rb => exact ⟨_, rfl, .cmp⟩
  | jmp =>
    simp only [exec, execJmp]
    rcases jumpInline_cases s with ⟨h, e⟩ | ⟨h, e⟩
    · exact ⟨_, by rw [e], .jmp h⟩
    · exact ⟨_, by rw [e], .jmpFault h⟩
  | call rt => exact ⟨_, rfl, .call⟩
  | ret =>
    simp only [exec, execRet]
    rcases jumpInline_cases s with ⟨h, e⟩ | ⟨h, e⟩
    · exact ⟨_, by rw [e], .ret h⟩
    · exact ⟨_, by rw [e], .retFault h⟩
  | beq r k =>
    simp only [exec, execBeq]
    by_cases hk : aluEq (readReg r s) k = true
    · rcases jumpInline_cases s with ⟨h, e⟩ | ⟨h, e⟩
      · exact ⟨_, by rw [if_pos hk, e], .beqTaken hk h⟩
      · exact ⟨_, by rw [if_pos hk, e], .beqFault hk h⟩
    · exact ⟨_, by rw [if_neg hk], .beqPast (Bool.eq_false_iff.2 hk)⟩
  | int => exact ⟨_, rfl, .int⟩
  | ldi rd imm => exact ⟨_, rfl, .ldi⟩
  | out rs => exact ⟨_, rfl, .out⟩
  | inp rd =>
    simp only [exec, execInp]
    rcases inputTake_cases s with ⟨h, e⟩ | ⟨v, rest, h, hv, e⟩ | ⟨v, rest, h, hv, e⟩
    · exact ⟨_, by rw [e], .inpSilent h⟩
    · exact ⟨_, by rw [e], .inpRejects h hv⟩
    · exact ⟨_, by rw [e], .inpAccepts h hv⟩
  | halt => exact ⟨_, rfl, .halt⟩

/-- The inversion of the execute phase. -/
theorem effect_of_exec {i : Instr} {s t : State} (h : exec i s = .next t) : Effect i s t := by
  obtain ⟨u, hu, e⟩ := exec_effect i s
  rw [hu] at h
  cases h
  exact e

end Sys2Proof.Machine
end

