-- ==== Sys2Proof/Laws/PerInstr.lean ====
section
/-! SUPPORT. The family TableMatch: the word that an instruction encodes to meets its row of
spec/opcode_table.json. -/

/-- The opcode of R86's table. -/
def Sys2Proof.Laws.opcode : Sys2Proof.Instr → Nat
  | .load _ _ => 0x00
  | .store _ _ => 0x01
  | .add _ _ _ => 0x02
  | .sub _ _ _ => 0x03
  | .mov _ _ => 0x04
  | .cmp _ _ => 0x05
  | .jmp => 0x06
  | .call _ => 0x07
  | .ret => 0x08
  | .beq _ _ => 0x09
  | .int => 0x0A
  | .ldi _ _ => 0x0B
  | .out _ => 0x0D
  | .inp _ => 0x0E
  | .halt => 0x0F

/-- The encoded word has bits 31:30 zero and, under the mask 0x3FC00000, equals `op << 22` (R84,
R86). -/
def Sys2Proof.Laws.TableMatch.Statement (i : Sys2Proof.Instr) : Prop :=
  ∀ w, Sys2Proof.encode i = .ok w →
    w &&& 0xC0000000#32 = 0#32 ∧
    w &&& 0x3FC00000#32 = BitVec.ofNat 32 (Sys2Proof.Laws.opcode i) <<< 22

namespace Sys2Proof.Laws.TableMatch

/-- The bits under the table's mask are the opcode field in its place. -/
theorem and_mask (w : Word) :
    w &&& 0x3FC00000#32 = (w.extractLsb' 22 8).setWidth 32 <<< 22 := by
  have hk : ∀ i, i < 32 → (0x3FC00000#32).getLsbD i = decide (22 ≤ i ∧ i < 30) := by decide
  apply BitVec.eq_of_getLsbD_eq
  intro i hi
  rw [BitVec.getLsbD_and, hk i hi]
  by_cases h22 : i < 22
  · simp [h22]
  · have e : 22 + (i - 22) = i := by omega
    by_cases h30 : i < 30
    · have : i - 22 < 8 := by omega
      have : i - 22 < 32 := by omega
      simp [*]
      omega
    · have : ¬ i - 22 < 8 := by omega
      simp [*]

/-- A 30-bit value has nothing under the mask of bits 31:30. -/
theorem and_high (x : BitVec 30) : x.setWidth 32 &&& 0xC0000000#32 = 0#32 := by
  have hm : ∀ i, i < 32 → (0xC0000000#32).getLsbD i = decide (30 ≤ i) := by decide
  apply BitVec.eq_of_getLsbD_eq
  intro i hi
  rw [BitVec.getLsbD_and, hm i hi]
  by_cases h30 : 30 ≤ i
  · simp [BitVec.getLsbD_of_ge x i h30]
  · simp [h30]

theorem of_packWord (op r1 r2 imm : Nat) (h : op ≤ 255) :
    packWord op r1 r2 imm &&& 0xC0000000#32 = 0#32 ∧
    packWord op r1 r2 imm &&& 0x3FC00000#32 = BitVec.ofNat 32 op <<< 22 := by
  refine ⟨and_high _, ?_⟩
  rw [and_mask, packWord, op_of_packed]
  congr 1
  apply BitVec.eq_of_toNat_eq
  simp only [BitVec.toNat_setWidth, BitVec.toNat_ofNat]
  omega

theorem of_encodeFields {op r1 r2 imm : Nat} {w : Word}
    (h : encodeFields op r1 r2 imm = .ok w) :
    w &&& 0xC0000000#32 = 0#32 ∧ w &&& 0x3FC00000#32 = BitVec.ofNat 32 op <<< 22 := by
  obtain ⟨h0, -, -, -, rfl⟩ := encodeFields_eq_ok h
  exact of_packWord op r1 r2 imm h0

theorem load (rd ra : Reg) : Statement (.load rd ra) := fun _ h => of_encodeFields h

theorem store (rs ra : Reg) : Statement (.store rs ra) := fun _ h => of_encodeFields h

theorem add (rd rs1 rs2 : Reg) : Statement (.add rd rs1 rs2) := fun _ h => of_encodeFields h

theorem sub (rd rs1 rs2 : Reg) : Statement (.sub rd rs1 rs2) := fun _ h => of_encodeFields h

theorem mov (rd rs : Reg) : Statement (.mov rd rs) := fun _ h => of_encodeFields h

theorem cmp (ra rb : Reg) : Statement (.cmp ra rb) := fun _ h => of_encodeFields h

theorem jmp : Statement .jmp := fun _ h => of_encodeFields h

theorem call (rt : Reg) : Statement (.call rt) := fun _ h => of_encodeFields h

theorem ret : Statement .ret := fun _ h => of_encodeFields h

theorem beq (r : Reg) (k : Nat) : Statement (.beq r k) := fun _ h => of_encodeFields h

theorem int : Statement .int := fun _ h => of_encodeFields h

theorem ldi (rd : Reg) (imm : Nat) : Statement (.ldi rd imm) := fun _ h => of_encodeFields h

theorem out (rs : Reg) : Statement (.out rs) := fun _ h => of_encodeFields h

theorem inp (rd : Reg) : Statement (.inp rd) := fun _ h => of_encodeFields h

theorem halt : Statement .halt := fun _ h => of_encodeFields h

end Sys2Proof.Laws.TableMatch
end

