-- ==== Sys2Proof/Laws/Step.lean ====
section
/-! SUPPORT. The step, turn by turn. -/

namespace Sys2Proof.Machine

/-! ### The spellings that the statements use -/

theorem inByteRange_iff (v : Word) : InByteRange v ↔ inRange v = true := by
  simp only [InByteRange, inRange, Config.memorySize, Bool.and_eq_true, decide_eq_true_eq]; omega

theorem not_inByteRange_iff (v : Word) : ¬ InByteRange v ↔ inRange v = false := by
  rw [inByteRange_iff, Bool.not_eq_true]

theorem inByteRange_iff_inputOk (v : Word) : InByteRange v ↔ inputOk v = true := by
  simp only [InByteRange, inputOk, Config.inputMax, Bool.and_eq_true, decide_eq_true_eq]; omega

theorem not_inByteRange_iff_inputOk (v : Word) : ¬ InByteRange v ↔ inputOk v = false := by
  rw [inByteRange_iff_inputOk, Bool.not_eq_true]

/-- The one cell whose successor is not in memory. -/
theorem succ_outside_iff {a : Word} (h : inRange a = true) : inRange (a + 1) = false ↔ a = 255 := by
  have := (inRange_iff a).1 h
  rw [inRange_eq_false_iff, toNat_succ_of_inRange h, ← BitVec.toNat_inj]
  change 256 ≤ a.toNat + 1 ↔ a.toNat = 255
  omega

theorem State.running_of_coreMoves {s : State} (h : s.coreMoves = true) : s.state = .running := by
  simp only [State.coreMoves, Bool.and_eq_true] at h
  exact of_decide_eq_true h.1

section atFetch

variable (s : State)

@[simp] theorem atFetch_regs : s.atFetch.regs = s.regs := rfl
@[simp] theorem atFetch_pc : s.atFetch.pc = s.pc := rfl
@[simp] theorem atFetch_state : s.atFetch.state = s.state := rfl
@[simp] theorem atFetch_cause : s.atFetch.cause = s.cause := rfl
@[simp] theorem atFetch_icount : s.atFetch.icount = s.icount := rfl
@[simp] theorem atFetch_mem : s.atFetch.mem = s.mem := rfl
@[simp] theorem atFetch_inPort : s.atFetch.inPort = s.inPort := rfl
@[simp] theorem atFetch_outPort : s.atFetch.outPort = s.outPort := rfl
@[simp] theorem atFetch_inReq : s.atFetch.inReq = s.inReq := rfl
@[simp] theorem atFetch_outValid : s.atFetch.outValid = false := rfl
@[simp] theorem atFetch_outputs : s.atFetch.outputs = s.outputs := rfl
@[simp] theorem atFetch_hostOffers : s.atFetch.hostOffers = s.hostOffers := rfl
@[simp] theorem atFetch_hostTurns : s.atFetch.hostTurns = s.hostTurns.tail := rfl
@[simp] theorem atFetch_readReg (r : Reg) : readReg r s.atFetch = readReg r s := rfl

end atFetch

/-! ### The turns -/

/-- A step of the CORE is a cycle from `atFetch`. -/
theorem step_of_coreMoves {s : State} (h : s.coreMoves = true) : step s = cycle s.atFetch := by
  simp only [State.coreMoves, State.hostMove, Bool.and_eq_true] at h
  obtain ⟨hr, ht⟩ := h
  replace hr := of_decide_eq_true hr
  unfold step nextTurn State.atFetch
  split
  · next he => simp [coreTurn, endPublish, hr, he]
  · next t rest he =>
    simp only [he, List.headD_cons] at ht
    obtain rfl : t = .quiet := of_decide_eq_true ht
    simp [takeTurn, coreTurn, endPublish, hr, he]

/-- A step by what the host does. -/
theorem step_eq_takeTurn (s : State) :
    step s = takeTurn s.hostMove { s with hostTurns := s.hostTurns.tail } := by
  unfold step nextTurn State.hostMove
  split
  · next he => cases s; cases he; rfl
  · next t rest he => simp [he]

/-- A quiet host and a CORE that is not RUNNING: nothing but the host's turn passes. -/
theorem coreTurn_not_running {s : State} (h : s.state ≠ .running) : coreTurn s = .next s := by
  unfold coreTurn; split <;> simp_all

theorem cycle_outside {s : State} (h : inRange s.pc = false) :
    cycle s = .next (raiseFault .pcOutOfRange s) := by simp [cycle, h]

theorem cycle_inRange {s : State} (h : inRange s.pc = true) :
    cycle s = executeWord (fetchWord s) (advancePc s) := by simp [cycle, h]

theorem executeWord_ok {w : Word} {i : Instr} {s : State} (h : decode w = .ok i) :
    executeWord w s = exec i s := by simp [executeWord, h]

theorem executeWord_error {w : Word} {e : DecodeError} {s : State} (h : decode w = .error e) :
    executeWord w s = .next (raiseFault .unknownOpcode s) := by
  cases e; simp [executeWord, h]

/-- What any other step can do: the host resets, loads a cell or starts in IDLE, or nothing but the
host's turn passes. -/
theorem hostStep_cases {s t : State} (h : s.coreMoves = false) (ht : step s = .next t) :
    (s.hostMove = .reset ∧ t = hostReset { s with hostTurns := s.hostTurns.tail }) ∨
    (s.state = .idle ∧ ∃ a d, s.hostMove = .load a d ∧
      t = writeCell a d { s with hostTurns := s.hostTurns.tail }) ∨
    (s.state = .idle ∧ s.hostMove = .start ∧
      t = { s with state := .running, hostTurns := s.hostTurns.tail }) ∨
    (s.hostMove ≠ .reset ∧ (s.state = .idle → s.hostMove = .quiet) ∧
      t = { s with hostTurns := s.hostTurns.tail }) := by
  rw [step_eq_takeTurn] at ht
  generalize hu : { s with hostTurns := s.hostTurns.tail } = u at ht
  have hs : u.state = s.state := by rw [← hu]
  cases hm : s.hostMove with
  | reset =>
    rw [hm] at ht
    cases ht
    exact .inl ⟨rfl, rfl⟩
  | load a d =>
    rw [hm] at ht
    cases ht
    by_cases hi : s.state = .idle
    · exact .inr (.inl ⟨hi, a, d, rfl, hostLoad_idle (hs.trans hi)⟩)
    · exact .inr (.inr (.inr ⟨nofun, fun h => absurd h hi, hostLoad_ignored (hs ▸ hi)⟩))
  | start =>
    rw [hm] at ht
    cases ht
    by_cases hi : s.state = .idle
    · exact .inr (.inr (.inl ⟨hi, rfl, by rw [hostStart_idle (hs.trans hi), ← hu]⟩))
    · exact .inr (.inr (.inr ⟨nofun, fun h => absurd h hi, hostStart_ignored (hs ▸ hi)⟩))
  | quiet =>
    rw [hm] at ht
    have hr : s.state ≠ .running := fun hr => by simp [State.coreMoves, hm, hr] at h
    rw [takeTurn, coreTurn_not_running (hs ▸ hr)] at ht
    cases ht
    exact .inr (.inr (.inr ⟨nofun, fun _ => rfl, rfl⟩))

/-- What a step of the CORE can do: the fetch fault, the fault of an undefined opcode, or the execute
phase of the instruction that the fetched cell spells. -/
theorem coreStep_cases {s t : State} (h : s.coreMoves = true) (ht : step s = .next t) :
    (inRange s.pc = false ∧ t = raiseFault .pcOutOfRange s.atFetch) ∨
    (inRange s.pc = true ∧ Undefined s.fetched.op ∧
      t = raiseFault .unknownOpcode (advancePc s.atFetch)) ∨
    (inRange s.pc = true ∧ ∃ i, decode (s.mem.read s.pc.toNat) = .ok i ∧
      SpelledBy s.fetched i ∧ Effect i (advancePc s.atFetch) t) := by
  rw [step_of_coreMoves h] at ht
  cases hp : inRange s.pc with
  | false =>
    rw [cycle_outside (s := s.atFetch) hp] at ht
    cases ht
    exact .inl ⟨rfl, rfl⟩
  | true =>
    rw [cycle_inRange (s := s.atFetch) hp] at ht
    cases hd : decode (fetchWord s.atFetch) with
    | error e =>
      rw [executeWord_error hd] at ht
      cases ht
      exact .inr (.inl ⟨rfl, undefined_of_decode hd, rfl⟩)
    | ok i =>
      rw [executeWord_ok hd] at ht
      exact .inr (.inr ⟨rfl, i, hd, spelledBy_of_decode hd, effect_of_exec ht⟩)

/-! ### Runs -/

theorem runSteps_zero (s : State) : runSteps 0 s = .next s := rfl

/-- A machine's run unrolls a step that answers a next state. -/
theorem run_succ (M : Host.Core) {k : Nat} {s t : M.State} (h : M.step s = .next t) :
    M.run (k + 1) s = M.run k t := by simp only [Host.Core.run, h]

theorem runSteps_succ {k : Nat} {s t : State} (h : step s = .next t) :
    runSteps (k + 1) s = runSteps k t := run_succ core h

/-- A CORE at an IN, under a host with no turns to take, executes that IN. -/
theorem step_at_in {s : State} (hr : s.state = .running) (ht : s.hostTurns = [])
    (hp : inRange s.pc = true) (ho : s.fetched.op = 0x0E) :
    step s = exec (.inp (regOf s.fetched.r1)) (advancePc s.atFetch) := by
  have hm : s.coreMoves = true := by simp [State.coreMoves, State.hostMove, hr, ht]
  have hd : decode (s.mem.read s.pc.toNat) = .ok (.inp (regOf s.fetched.r1)) := by
    rw [decode_eq, decodeFields, show (fieldsOf (s.mem.read s.pc.toNat)).op = 0x0E from ho]; rfl
  rw [step_of_coreMoves hm, cycle_inRange (s := s.atFetch) hp]
  exact executeWord_ok hd

end Sys2Proof.Machine
end

