-- ==== Sys2Proof/Tests/Slice0.lean ====
section
/-! SUPPORT. Tests of the model, each about one step or one word, and for every obligation with
hypotheses a witness that meets them. Every expected value comes from spec/95_test_vectors.md (the
vector's name stands in the docstring) or from the rule named there. -/

namespace Sys2Proof.Tests

open Sys2Proof Sys2Proof.Machine

/-! ### Helpers -/

/-- A RUNNING state with these cells, `pc` and registers, everything else as reset left it. -/
def running (mem : Memory) (pc : Word) (regs : Vector Word 8) : State :=
  { State.reset with state := .running, mem := mem, pc := pc, regs := regs }

/-- The next state, if there is one. -/
def after (o : Host.Outcome State Fault Refusal) : Option State :=
  match o with
  | .next s => some s
  | .fault _ => none
  | .refused _ => none

/-- The word, if there is one. -/
def wordOf (e : Except EncodingError Word) : Option Word := e.toOption

/-- The instruction, if there is one. -/
def instrOf (w : Word) : Option Instr := (decode w).toOption

/-- `state`, `cause`, `pc` and `icount` after one step. -/
def ends (s : State) : Option (RunState × Cause × Word × BitVec 64) :=
  (after (step s)).map fun t => (t.state, t.cause, t.pc, t.icount)

/-- No registers set. -/
abbrev zeros : Vector Word 8 := Vector.replicate 8 0

/-! ### Well-formedness -/

theorem test_beq_literal_largest : WellFormed (.beq 5 7) := by decide
theorem test_beq_literal_refused : ¬ WellFormed (.beq 5 8) := by decide
theorem test_ldi_pattern_largest : WellFormed (.ldi 2 0xFFFF) := by decide
theorem test_ldi_pattern_refused : ¬ WellFormed (.ldi 2 0x10000) := by decide

/-! ### Encoding, from the bits of R80 and the opcodes of R86 -/

/-- S1. -/
theorem test_encode_fields :
    wordOf (encodeFields 0x02 1 2 3) = some 0x008A0003 ∧
    wordOf (encodeFields 0xFF 7 7 0xFFFF) = some 0x3FFFFFFF ∧
    wordOf (encodeFields 0 0 0 0) = some 0 := by decide

/-- S1: a field that exceeds its width. -/
theorem test_encode_fields_refused :
    wordOf (encodeFields 0x100 0 0 0) = none ∧ wordOf (encodeFields 0 8 0 0) = none ∧
    wordOf (encodeFields 0 0 8 0) = none ∧ wordOf (encodeFields 0 0 0 0x10000) = none := by decide

/-- The words of sections 2.2 to 2.5: one of every instruction. -/
theorem test_encode_every_instruction :
    wordOf (encode (.load 1 2)) = some 0x000A0000 ∧
    wordOf (encode (.store 1 2)) = some 0x004A0000 ∧
    wordOf (encode (.add 1 2 3)) = some 0x008A0003 ∧
    wordOf (encode (.sub 1 2 3)) = some 0x00CA0003 ∧
    wordOf (encode (.mov 1 2)) = some 0x010A0000 ∧
    wordOf (encode (.cmp 1 2)) = some 0x014A0000 ∧
    wordOf (encode .jmp) = some 0x01800000 ∧
    wordOf (encode (.call 4)) = some 0x01E00000 ∧
    wordOf (encode .ret) = some 0x02000000 ∧
    wordOf (encode (.beq 1 3)) = some 0x024B0000 ∧
    wordOf (encode .int) = some 0x02800000 ∧
    wordOf (encode (.ldi 4 0x8000)) = some 0x02E08000 ∧
    wordOf (encode (.out 1)) = some 0x03480000 ∧
    wordOf (encode (.inp 1)) = some 0x03880000 ∧
    wordOf (encode .halt) = some 0x03C00000 := by decide

/-- The words of sections 2.1 to 2.5, with ignored fields set where the vectors set them: one of
every instruction. -/
theorem test_decode_every_instruction :
    instrOf 0b00000000000010100000000000000000 = some (.load 1 2) ∧
    instrOf 0b00000000010010100000000000000000 = some (.store 1 2) ∧
    instrOf 0b11000000100010100000000000000011 = some (.add 1 2 3) ∧
    instrOf 0b00000000110010100000000000000011 = some (.sub 1 2 3) ∧
    instrOf 0b00000001000010100000000000000000 = some (.mov 1 2) ∧
    instrOf 0b00000001010010100000000000000000 = some (.cmp 1 2) ∧
    instrOf 0b00000001100000000000000000000000 = some .jmp ∧
    instrOf 0b00000001111000000000000000000000 = some (.call 4) ∧
    instrOf 0b00000010000000000000000000000000 = some .ret ∧
    instrOf 0b00000010011011110000000000000000 = some (.beq 5 7) ∧
    instrOf 0b00000010101111111111111111111111 = some .int ∧
    instrOf 0b00000010110011110000000000000101 = some (.ldi 1 5) ∧
    instrOf 0b00000011010010000000000000000000 = some (.out 1) ∧
    instrOf 0b00000011100010000000000000000000 = some (.inp 1) ∧
    instrOf 0b00000011111111111111111111111111 = some .halt := by decide

/-- E7 to E10. -/
theorem test_decode_undefined :
    instrOf 0x03000000 = none ∧ instrOf 0x04000000 = none ∧ instrOf 0x3FC00000 = none ∧
    instrOf 0xFFFFFFFF = none := by decide

/-- R38: HALT is not among the executable opcodes, and the reserved 0x0C is not defined. -/
theorem test_is_defined :
    (fieldsOf 0x008A0003).isDefined = true ∧ (fieldsOf 0x03C00000).isDefined = false ∧
    (fieldsOf 0x03FFFFFF).isHalt = true ∧ (fieldsOf 0x03000000).isDefined = false := by decide

/-! ### alu (section 2.2) -/

/-- A1. -/
theorem test_add_wraps : after (step (running [(0, 0x008A0003)] 0 #v[0, 0, 0x7FFFFFFF, 1, 0, 0, 0, 0]))
    = some { running [(0, 0x008A0003)] 1 #v[0, 0x80000000, 0x7FFFFFFF, 1, 0, 0, 0, 0] with
        icount := 1 } := by decide

/-- A3. -/
theorem test_add_same_register :
    (after (step (running [(0, 0x00890001)] 0 #v[0, 0x40000000, 0, 0, 0, 0, 0, 0]))).map State.regs
    = some #v[0, 0x80000000, 0, 0, 0, 0, 0, 0] := by decide

/-- A6. -/
theorem test_sub_negative :
    (after (step (running [(0, 0x00CA0003)] 0 #v[0, 0, 5, 7, 0, 0, 0, 0]))).map State.regs
    = some #v[0, 0xFFFFFFFE, 5, 7, 0, 0, 0, 0] := by decide

/-- A8. -/
theorem test_sub_same_register :
    (after (step (running [(0, 0x00E40004)] 0 #v[0, 0, 0, 0, 123, 0, 0, 0]))).map State.regs
    = some zeros := by decide

/-- A9. -/
theorem test_mov :
    (after (step (running [(0, 0x010A0000)] 0 #v[0, 0, 0xDEADBEEF, 0, 0, 0, 0, 0]))).map State.regs
    = some #v[0, 0xDEADBEEF, 0xDEADBEEF, 0, 0, 0, 0, 0] := by decide

/-- A13. -/
theorem test_ldi_largest :
    (after (step (running [(0, 0x02D87FFF)] 0 zeros))).map State.regs
    = some #v[0, 0, 0, 0x00007FFF, 0, 0, 0, 0] := by decide

/-- A14. -/
theorem test_ldi_smallest :
    (after (step (running [(0, 0x02E08000)] 0 zeros))).map State.regs
    = some #v[0, 0, 0, 0, 0xFFFF8000, 0, 0, 0] := by decide

/-- A16. -/
theorem test_cmp_changes_nothing :
    after (step (running [(0, 0x014A0000)] 0 #v[0, 3, 3, 0, 0, 0, 0, 0]))
    = some { running [(0, 0x014A0000)] 1 #v[0, 3, 3, 0, 0, 0, 0, 0] with icount := 1 } := by decide

/-! ### load_store_unit (section 2.3) -/

/-- L2. -/
theorem test_load_top_cell :
    after (step (running [(0, 0x000A0000), (255, 7)] 0 #v[0, 0, 255, 0, 0, 0, 0, 0]))
    = some { running [(0, 0x000A0000), (255, 7)] 1 #v[0, 7, 255, 0, 0, 0, 0, 0] with
        icount := 1 } := by decide

/-- L4. -/
theorem test_load_negative_address :
    after (step (running [(0, 0x000A0000)] 0 #v[0, 0, 0xFFFFFFFF, 0, 0, 0, 0, 0]))
    = some { running [(0, 0x000A0000)] 1 #v[0, 0, 0xFFFFFFFF, 0, 0, 0, 0, 0] with
        state := .faulted, cause := .addressOutOfRange } := by decide

/-- L9. -/
theorem test_store_own_address :
    after (step (running [(0, 0x005B0000)] 0 #v[0, 0, 0, 10, 0, 0, 0, 0]))
    = some { running [(0, 0x005B0000), (10, 10)] 1 #v[0, 0, 0, 10, 0, 0, 0, 0] with
        icount := 1 } := by decide

/-- L8. -/
theorem test_store_past_the_top :
    after (step (running [(0, 0x004A0000)] 0 #v[0, 5, 256, 0, 0, 0, 0, 0]))
    = some { running [(0, 0x004A0000)] 1 #v[0, 5, 256, 0, 0, 0, 0, 0] with
        state := .faulted, cause := .addressOutOfRange } := by decide

/-- R34: storing the value of an unlisted cell leaves the cell unlisted. -/
theorem test_store_zero_keeps_the_form :
    (after (step (running [(0, 0x004A0000), (4, 9), (7, 1)] 0 #v[0, 0, 4, 0, 0, 0, 0, 0]))).map
      State.mem = some [(0, 0x004A0000), (7, 1)] := by decide

/-! ### program_counter_mux (section 2.4) -/

/-- T1. -/
theorem test_jmp : ends (running [(5, 0x01800000), (6, 20)] 5 zeros)
    = some (.running, .none, 20, 1) := by decide

/-- T2. -/
theorem test_jmp_at_the_top : ends (running [(255, 0x01800000)] 255 zeros)
    = some (.faulted, .addressOutOfRange, 256, 0) := by decide

/-- T8. -/
theorem test_beq_taken : ends (running [(5, 0x026F0000), (6, 30)] 5 #v[0, 0, 0, 0, 0, 7, 0, 0])
    = some (.running, .none, 30, 1) := by decide

/-- T7. -/
theorem test_beq_compares_the_whole_pattern :
    ends (running [(5, 0x024B0000), (6, 20)] 5 #v[0, 0xFFFFFFFB, 0, 0, 0, 0, 0, 0])
    = some (.running, .none, 7, 1) := by decide

/-- T12. -/
theorem test_call : after (step (running [(2, 0x01E00000)] 2 #v[0, 0, 0, 0, 10, 0, 0, 0]))
    = some { running [(2, 3)] 10 #v[0, 0, 0, 0, 10, 0, 0, 0] with icount := 1 } := by decide

/-- T14. -/
theorem test_call_at_the_top :
    after (step (running [(255, 0x01C80000)] 255 #v[0, 300, 0, 0, 0, 0, 0, 0]))
    = some { running [(255, 256)] 300 #v[0, 300, 0, 0, 0, 0, 0, 0] with icount := 1 } := by decide

/-- T17. -/
theorem test_ret_takes_any_value : ends (running [(11, 0x02000000), (12, 0x1000)] 11 zeros)
    = some (.running, .none, 0x1000, 1) := by decide

/-- T16. -/
theorem test_ret_at_the_top : ends (running [(255, 0x02000000)] 255 zeros)
    = some (.faulted, .addressOutOfRange, 256, 0) := by decide

/-! ### halt_fsm, INT and the ports (section 2.5) -/

/-- H4. -/
theorem test_halt_at_the_top : ends (running [(255, 0x03C00000)] 255 zeros)
    = some (.halted, .none, 256, 0) := by decide

/-- H3. -/
theorem test_halt_ignores_the_other_bits : ends (running [(0, 0xC3C00000)] 0 zeros)
    = some (.halted, .none, 1, 0) := by decide

/-- H6. -/
theorem test_int : ends (running [(0, 0x02BFFFFF)] 0 zeros)
    = some (.faulted, .interruptSignal, 1, 0) := by decide

/-- H9. -/
theorem test_in_accepts :
    after (step { running [(0, 0x03800000)] 0 zeros with hostOffers := [255, 1] })
    = some { running [(0, 0x03800000)] 1 #v[255, 0, 0, 0, 0, 0, 0, 0] with
        icount := 1, inPort := 255, hostOffers := [1] } := by decide

/-- H10, its first offer. -/
theorem test_in_rejects :
    after (step { running [(0, 0x03880000)] 0 zeros with hostOffers := [256, 255] })
    = some { running [(0, 0x03880000)] 0 zeros with inReq := true, hostOffers := [255] } := by
  decide

/-- H13. -/
theorem test_out :
    after (step (running [(0, 0x03480000)] 0 #v[0, 0xFFFFFFFF, 0, 0, 0, 0, 0, 0]))
    = some { running [(0, 0x03480000)] 1 #v[0, 0xFFFFFFFF, 0, 0, 0, 0, 0, 0] with
        icount := 1, outPort := 0xFFFFFFFF, outValid := true, outputs := [0xFFFFFFFF] } := by decide

/-! ### Fetch and dispatch (section 2.6) -/

/-- S3, C1. -/
theorem test_fetch_past_the_top : after (step (running [] 256 #v[0, 5, 0, 0, 0, 0, 0, 0]))
    = some { running [] 256 #v[0, 5, 0, 0, 0, 0, 0, 0] with
        state := .faulted, cause := .pcOutOfRange } := by decide

/-- C3. -/
theorem test_fetch_negative : ends (running [] 0x80000000 zeros)
    = some (.faulted, .pcOutOfRange, 0x80000000, 0) := by decide

/-- C6. -/
theorem test_undefined_opcode : ends (running [(0, 0xFFFFFFFF)] 0 zeros)
    = some (.faulted, .unknownOpcode, 1, 0) := by decide

/-- R29: the count wraps. -/
theorem test_icount_wraps :
    (after (step { running [(0, 0x01400000)] 0 zeros with icount := 0xFFFFFFFFFFFFFFFF })).map
      State.icount = some 0 := by decide

/-! ### Reset and the host (section 2.7) -/

/-- B3, the turns of the host one by one: load, start. -/
theorem test_host_load_and_start :
    after (step { State.reset with hostTurns := [.load 0 0x03C00000, .start] })
      = some { State.reset with mem := [(0, 0x03C00000)], hostTurns := [.start] } ∧
    after (step { State.reset with mem := [(0, 0x03C00000)], hostTurns := [.start] })
      = some (running [(0, 0x03C00000)] 0 zeros) := by decide

/-- B4: a load in FAULTED is ignored. -/
theorem test_load_ignored_when_faulted :
    after (step { running [(0, 0x02800000)] 1 zeros with
      state := .faulted, cause := .interruptSignal, hostTurns := [.load 0 0x03C00000] })
    = some { running [(0, 0x02800000)] 1 zeros with
      state := .faulted, cause := .interruptSignal } := by decide

/-- B5, B6. -/
theorem test_load_writes_cells :
    hostLoad 256 1 State.reset = State.reset ∧
    (hostLoad 3 7 (hostLoad 3 5 State.reset)).mem = [(3, 7)] := by decide

/-- R30, R31: the status codes of a FAULTED state, from R31's table. -/
theorem test_status_codes :
    statusOf { running [] 256 zeros with state := .faulted, cause := .pcOutOfRange } = ⟨3, 1, 0⟩ ∧
    statusOf { running [] 1 zeros with state := .faulted, cause := .unknownOpcode } = ⟨3, 2, 0⟩ := by
  decide

/-- B7. -/
theorem test_reset_from_faulted :
    after (step { running [(0, 0x02800000)] 1 #v[1, 2, 3, 4, 5, 6, 7, 8] with
      state := .faulted, cause := .interruptSignal, icount := 9, inPort := 3, outPort := 4,
      inReq := true, outValid := true, outputs := [4], hostTurns := [.reset] })
    = some State.reset := by decide

/-- P1, loaded as R255 says. -/
theorem test_load_program :
    (loadProgram [0x02D00005, 0x02D80007, 0, 0x03480000] State.reset).mem
    = [(0, 0x02D00005), (1, 0x02D80007), (3, 0x03480000)] := by decide

/-- E4, E7, A12, S5: a word placed by `withFetchWord` runs at the next step. -/
theorem test_with_fetch_word :
    decodeTableWord 32 0x02D0FFFF = some (.ldi 2 0xFFFF) ∧ decodeTableWord 32 0x03000000 = none ∧
    (after (step (State.reset.withFetchWord 32 0x02D0FFFF))).map State.regs
      = some #v[0, 0, 0xFFFFFFFF, 0, 0, 0, 0, 0] ∧
    ends (State.reset.withFetchWord 32 0x03C00000) = some (.halted, .none, 1, 0) := by decide

/-! ### Witnesses: for each obligation with hypotheses, states and operands that meet them -/

/-- The encodings: every field at its largest value, and each field one past it (S1). -/
theorem witness_fields :
    (255 < 256 ∧ 7 < 8 ∧ 65535 < 65536) ∧
    wordOf (encodeFields 255 7 7 65535) = some 0x3FFFFFFF ∧
    (256 > 255 ∧ 8 > 7 ∧ 0x10000 > 0xFFFF) := by decide

/-- DecodeOfEncodeIsTheInstruction, LdiLoadsTheSignExtendedImmediate, BeqBranchesOnTheLiteral: the
boundary operands are `test_beq_literal_…` and `test_ldi_pattern_…`, and here those between. -/
theorem witness_wellFormed :
    WellFormed (.beq 0 0) ∧ WellFormed (.ldi 0 0) ∧ WellFormed (.ldi 0 0x7FFF) ∧
    WellFormed (.ldi 0 0x8000) := by decide

/-- DecodedWordHasACanonicalWord: a word with ignored bits set decodes (E2, E3). -/
theorem witness_word_with_a_canonical_word : instrOf 0xC08AFFFB = some (.add 1 2 3) := by decide

/-- IllegalOpcodesDecodeToNothing, UndefinedOpcodeFaults: the boundaries of R89's opcodes. -/
theorem witness_undefined :
    Undefined 0x0C ∧ Undefined 0x10 ∧ Undefined 0xFF ∧ ¬ Undefined 0x0B ∧ ¬ Undefined 0x0F := by
  decide

/-- IgnoredBitsDoNotMatter: E1 and a word that differs from it in ignored bits alone; and two
ADDs that differ in `r3` do not meet the hypothesis. -/
theorem witness_ignored_bits :
    (0x008A0003 : Word) &&& usedBits (BitVec.extractLsb' 22 8 (0x008A0003 : Word)) =
      0xC08AFFFB &&& usedBits (BitVec.extractLsb' 22 8 (0x008A0003 : Word)) ∧
    (0x008A0003 : Word) &&& usedBits (BitVec.extractLsb' 22 8 (0x008A0003 : Word)) ≠
      0x008A0004 &&& usedBits (BitVec.extractLsb' 22 8 (0x008A0003 : Word)) := by decide

/-- SmallNumbersDecodeAsLoad: both ends of the range. -/
theorem witness_small_numbers :
    instrOf (BitVec.ofNat 32 0) = some (.load 0 0) ∧
    instrOf (BitVec.ofNat 32 65535) = some (.load 0 0) := by decide

/-- StepRunsTheDecodedInstruction: at the first and the last cell. -/
theorem witness_step_runs :
    (running [(0, 0x03C00000)] 0 zeros).coreMoves = true ∧ InByteRange 0 ∧
    decode ((running [(0, 0x03C00000)] 0 zeros).mem.read 0) = .ok .halt ∧
    (running [(255, 0x01400000)] 255 zeros).coreMoves = true ∧ InByteRange 255 ∧
    decode ((running [(255, 0x01400000)] 255 zeros).mem.read 255) = .ok (.cmp 0 0) :=
  ⟨by decide, by decide, rfl, by decide, by decide, rfl⟩

/-- StepRunsTheDecodedInstruction: a host's `quiet` turn before the CORE's. -/
theorem witness_quiet_turn :
    ({ running [(0, 0x03C00000)] 0 zeros with hostTurns := [.quiet, .reset] }).coreMoves = true := by
  decide

/-- FetchOutOfRangeFaults: the two boundaries (C1, C2). -/
theorem witness_fetch_out_of_range :
    (running [] 256 zeros).coreMoves = true ∧ ¬ InByteRange (running [] 256 zeros).pc ∧
    (running [] 0xFFFFFFFF zeros).coreMoves = true ∧
    ¬ InByteRange (running [] 0xFFFFFFFF zeros).pc := by decide

/-- HaltOpcodeHaltsTheRun (H4). -/
theorem witness_halt_opcode :
    (running [(255, 0x03FFFFFF)] 255 zeros).coreMoves = true ∧
    InByteRange (running [(255, 0x03FFFFFF)] 255 zeros).pc ∧
    (running [(255, 0x03FFFFFF)] 255 zeros).fetched.op = 0x0F := by decide

/-- UndefinedOpcodeFaults (C4, C6). -/
theorem witness_undefined_opcode :
    (running [(0, 0x03000000)] 0 zeros).coreMoves = true ∧
    InByteRange (running [(0, 0x03000000)] 0 zeros).pc ∧
    Undefined (running [(0, 0x03000000)] 0 zeros).fetched.op ∧
    Undefined (running [(255, 0xFFFFFFFF)] 255 zeros).fetched.op := by decide

/-- A RUNNING state with a canonical memory, no port used and no IN waiting meets `Inv`. -/
theorem inv_running {mem : Memory} {pc : Word} {regs : Vector Word 8} (h : mem.wf = true) :
    Inv (running mem pc regs) :=
  ⟨h, by simp [running, State.reset], (by decide : InByteRange 0), rfl, nofun, nofun, nofun⟩

/-- StepHasOneOfFourOutcomes, EveryStepKeepsTheInvariant, OnlyStoreAndCallChangeOneCell: a state for
each outcome; the steps are in the tests above. -/
theorem witness_four_outcomes :
    Inv (running [(0, 0x005B0000)] 0 #v[0, 0, 0, 10, 0, 0, 0, 0]) ∧
    Inv (running [(255, 0x03C00000)] 255 zeros) ∧ Inv (running [] 256 zeros) ∧
    Inv (running [(0, 0x03880000)] 0 zeros) ∧
    ends (running [(0, 0x005B0000)] 0 #v[0, 0, 0, 10, 0, 0, 0, 0]) = some (.running, .none, 1, 1) ∧
    ends (running [(0, 0x03880000)] 0 zeros) = some (.running, .none, 0, 0) :=
  ⟨inv_running rfl, inv_running rfl, inv_running rfl, inv_running rfl, by decide, by decide⟩

/-- EveryStepKeepsTheInvariant: states with a waiting IN and with something published meet `Inv`. -/
theorem witness_inv_of_the_ports :
    Inv { running [(0, 0x03880000)] 0 zeros with inReq := true } ∧
    Inv { running [(0, 0x03480000)] 1 zeros with
      outPort := 12, outValid := true, outputs := [12], inPort := 255, icount := 1 } :=
  ⟨⟨rfl, by decide, by decide, rfl, by decide, by decide, by decide⟩,
    ⟨rfl, by decide, by decide, rfl, by decide, by decide, by decide⟩⟩

/-- EveryStepKeepsTheEndExplained: RUNNING and each way to have stopped. -/
theorem witness_end_explained :
    EndExplained (running [] 0 zeros) ∧
    EndExplained { running [(255, 0x03C00000)] 256 zeros with state := .halted } ∧
    EndExplained { running [] 256 zeros with state := .faulted, cause := .pcOutOfRange } ∧
    EndExplained { running [(0, 0x03000000)] 1 zeros with
      state := .faulted, cause := .unknownOpcode } ∧
    EndExplained { running [(0, 0x000A0000)] 1 #v[0, 0, 256, 0, 0, 0, 0, 0] with
      state := .faulted, cause := .addressOutOfRange } ∧
    EndExplained { running [(255, 0x024F0000)] 256 #v[0, 7, 0, 0, 0, 0, 0, 0] with
      state := .faulted, cause := .addressOutOfRange } ∧
    EndExplained { running [(0, 0x02800000)] 1 zeros with
      state := .faulted, cause := .interruptSignal } :=
  ⟨⟨by decide, by decide, by decide, by decide, by decide, by decide⟩,
    ⟨by decide, by decide, by decide, by decide, by decide, by decide⟩,
    ⟨by decide, by decide, by decide, by decide, by decide, by decide⟩,
    ⟨by decide, by decide, by decide, by decide, by decide, by decide⟩,
    ⟨by decide, by decide, by decide, by decide, by decide, by decide⟩,
    ⟨by decide, by decide, by decide, by decide, by decide, by decide⟩,
    ⟨by decide, by decide, by decide, by decide, by decide, by decide⟩⟩

/-- LoadReadsTheAddressedCell, StoreWritesTheAddressedCell: an address at each boundary. -/
theorem witness_addresses :
    InByteRange (running [] 1 #v[0, 0, 255, 256, 0xFFFFFFFF, 0, 0, 0]).regs[(2 : Reg)] ∧
    InByteRange (running [] 1 zeros).regs[(2 : Reg)] ∧
    ¬ InByteRange (running [] 1 #v[0, 0, 255, 256, 0xFFFFFFFF, 0, 0, 0]).regs[(3 : Reg)] ∧
    ¬ InByteRange (running [] 1 #v[0, 0, 255, 256, 0xFFFFFFFF, 0, 0, 0]).regs[(4 : Reg)] ∧
    (running [(0, 1), (255, 7)] 1 zeros).mem.wf = true := by decide

/-- JmpGoesThroughTheInlineWord, RetGoesThroughTheInlineWord: an inline word at 255 and one at 256. -/
theorem witness_inline_address :
    InByteRange (running [] 255 zeros).pc ∧ ¬ InByteRange (running [] 256 zeros).pc := by decide

/-- BeqBranchesOnTheLiteral: equal with the inline word in range and not, and different. -/
theorem witness_beq :
    ((running [] 255 #v[7, 0, 0, 0, 0, 0, 0, 0]).regs[(0 : Reg)].toNat = 7 ∧
      InByteRange (running [] 255 #v[7, 0, 0, 0, 0, 0, 0, 0]).pc) ∧
    ((running [] 256 zeros).regs[(0 : Reg)].toNat = 0 ∧
      ¬ InByteRange (running [] 256 zeros).pc) ∧
    (running [] 255 #v[8, 0, 0, 0, 0, 0, 0, 0]).regs[(0 : Reg)].toNat ≠ 7 := by decide

/-- CallSavesAndGoesToTheRegister: the execute phase of a CALL at 0 and at 255, and, for its last
clause, states in which `pc - 1` names no cell, on either side of the range. -/
theorem witness_call :
    (running [(255, 0x01C80000)] 256 zeros).mem.wf = true ∧
    InByteRange ((running [(255, 0x01C80000)] 256 zeros).pc - 1) ∧
    InByteRange ((running [(0, 0x01C80000)] 1 zeros).pc - 1) ∧
    ¬ InByteRange ((running [(1, 7)] 0 zeros).pc - 1) ∧
    ¬ InByteRange ((running [(1, 7)] 257 zeros).pc - 1) ∧
    (running [(1, 7)] 0 zeros).mem.wf = true := by decide

/-- The words that the decoding clauses of the per-instruction statements speak of. -/
theorem witness_opcodes :
    BitVec.extractLsb' 22 8 (0x000A0000 : Word) = 0x00 ∧
    BitVec.extractLsb' 22 8 (0x004A0000 : Word) = 0x01 ∧
    BitVec.extractLsb' 22 8 (0xC08AFFFB : Word) = 0x02 ∧
    BitVec.extractLsb' 22 8 (0x00CA0003 : Word) = 0x03 ∧
    BitVec.extractLsb' 22 8 (0x010A0000 : Word) = 0x04 ∧
    BitVec.extractLsb' 22 8 (0x014A0000 : Word) = 0x05 ∧
    BitVec.extractLsb' 22 8 (0x01800000 : Word) = 0x06 ∧
    BitVec.extractLsb' 22 8 (0x01E00000 : Word) = 0x07 ∧
    BitVec.extractLsb' 22 8 (0x02000000 : Word) = 0x08 ∧
    BitVec.extractLsb' 22 8 (0x026F0000 : Word) = 0x09 ∧
    BitVec.extractLsb' 22 8 (0x02BFFFFF : Word) = 0x0A ∧
    BitVec.extractLsb' 22 8 (0x02CF0005 : Word) = 0x0B ∧
    BitVec.extractLsb' 22 8 (0x03480000 : Word) = 0x0D ∧
    BitVec.extractLsb' 22 8 (0x03880000 : Word) = 0x0E ∧
    BitVec.extractLsb' 22 8 (0x03FFFFFF : Word) = 0x0F := by decide

/-- InTakesAnAcceptableOffer, InRejectsThenTakes: offers at each boundary, and none (H8 to H11). -/
theorem witness_offers :
    InByteRange 0 ∧ InByteRange 255 ∧ ¬ InByteRange 256 ∧ ¬ InByteRange 0xFFFFFFFF ∧
    State.reset.hostOffers = [] := by decide

/-- RegistersReadAndWrittenAsListed: `exec` answers a next state, a faulting one too, and a register
is not among those read. -/
theorem witness_registers :
    after (exec (.load 1 2) (running [(4, 42)] 1 #v[0, 0, 4, 0, 0, 0, 0, 0]))
      = some { running [(4, 42)] 1 #v[0, 42, 4, 0, 0, 0, 0, 0] with icount := 1 } ∧
    (after (exec (.load 1 2) (running [] 1 #v[0, 0, 256, 0, 0, 0, 0, 0]))).map State.state
      = some .faulted ∧
    (1 : Reg) ∉ readsOf (.load 1 2) ∧ writesOf (.load 1 2) = some 1 := by decide

/-- OnlyStoreAndCallChangeOneCell: a cell that changes, by STORE (L7) and by CALL (T12). -/
theorem witness_changed_cell :
    Inv (running [(0, 0x004A0000)] 0 #v[0, 5, 255, 0, 0, 0, 0, 0]) ∧
    (running [(0, 0x004A0000)] 0 #v[0, 5, 255, 0, 0, 0, 0, 0]).coreMoves = true ∧
    (after (step (running [(0, 0x004A0000)] 0 #v[0, 5, 255, 0, 0, 0, 0, 0]))).map State.mem
      = some [(0, 0x004A0000), (255, 5)] ∧
    Inv (running [(2, 0x01E00000)] 2 #v[0, 0, 0, 0, 10, 0, 0, 0]) ∧
    (after (step (running [(2, 0x01E00000)] 2 #v[0, 0, 0, 0, 10, 0, 0, 0]))).map State.mem
      = some [(2, 3)] :=
  ⟨inv_running rfl, by decide, by decide, inv_running rfl, by decide⟩

/-- NextPcIsTheMuxSelection, EachFaultUnderItsCondition, FaultChangesOnlyStatusAndPc,
OutputsAreThePublishedValues: the CORE moves and its step answers a next state that is FAULTED, and
one that is not. -/
theorem witness_core_step :
    (running [(255, 0x01800000)] 255 zeros).coreMoves = true ∧
    ends (running [(255, 0x01800000)] 255 zeros) = some (.faulted, .addressOutOfRange, 256, 0) ∧
    (running [(0, 0x03480000)] 0 zeros).coreMoves = true ∧
    ends (running [(0, 0x03480000)] 0 zeros) = some (.running, .none, 1, 1) := by decide

/-- OffersMatterToInAlone: a state that fetches no IN, and one that fetches none for its `pc`. -/
theorem witness_not_at_in :
    (running [(0, 0x03480000)] 0 zeros).atIn = false ∧ (running [] 256 zeros).atIn = false ∧
    (running [(0, 0x03880000)] 0 zeros).atIn = true := by decide

/-- NextFetchSeesTheWrite, its STORE: P7's at the last cell whose successor is in memory. -/
theorem witness_store_to_the_next_cell :
    Inv (running [(254, 0x004B0000)] 254 #v[0, 0x03C00000, 0, 255, 0, 0, 0, 0]) ∧
    (running [(254, 0x004B0000)] 254 #v[0, 0x03C00000, 0, 255, 0, 0, 0, 0]).state = .running ∧
    (running [(254, 0x004B0000)] 254 #v[0, 0x03C00000, 0, 255, 0, 0, 0, 0]).hostTurns = [] ∧
    InByteRange 254 ∧ InByteRange (254 + 1) ∧
    (running [(254, 0x004B0000)] 254 #v[0, 0x03C00000, 0, 255, 0, 0, 0, 0]).fetched.op = 0x01 ∧
    readReg (regOf (running [(254, 0x004B0000)] 254
      #v[0, 0x03C00000, 0, 255, 0, 0, 0, 0]).fetched.r2)
      (running [(254, 0x004B0000)] 254 #v[0, 0x03C00000, 0, 255, 0, 0, 0, 0]) = 254 + 1 ∧
    instrOf (readReg (regOf (running [(254, 0x004B0000)] 254
      #v[0, 0x03C00000, 0, 255, 0, 0, 0, 0]).fetched.r1)
      (running [(254, 0x004B0000)] 254 #v[0, 0x03C00000, 0, 255, 0, 0, 0, 0])) = some .halt :=
  ⟨inv_running rfl, by decide, by decide, by decide, by decide, by decide, by decide, by decide⟩

/-- NextFetchSeesTheWrite, its STORE, with an illegal word stored: the next step raises
UNKNOWN_OPCODE (R116). -/
theorem witness_store_of_an_illegal_word :
    Inv (running [(0, 0x004B0000)] 0 #v[0, 0x03000000, 0, 1, 0, 0, 0, 0]) ∧
    ((after (step (running [(0, 0x004B0000)] 0 #v[0, 0x03000000, 0, 1, 0, 0, 0, 0]))).bind ends)
      = some (.faulted, .unknownOpcode, 2, 1) :=
  ⟨inv_running rfl, by decide⟩

/-- NextFetchSeesTheWrite, its CALL (T13). -/
theorem witness_call_to_itself :
    Inv (running [(2, 0x01C80000)] 2 #v[0, 2, 0, 0, 0, 0, 0, 0]) ∧
    (running [(2, 0x01C80000)] 2 #v[0, 2, 0, 0, 0, 0, 0, 0]).fetched.op = 0x07 ∧
    readReg (regOf (running [(2, 0x01C80000)] 2 #v[0, 2, 0, 0, 0, 0, 0, 0]).fetched.r1)
      (running [(2, 0x01C80000)] 2 #v[0, 2, 0, 0, 0, 0, 0, 0]) = 2 :=
  ⟨inv_running rfl, by decide, by decide⟩

/-- ResetPutsEveryValueBack, HaltFsmMovesAsTabled, StartSetsRunningOnly: each move of the host. -/
theorem witness_host_moves :
    ({ State.reset with hostTurns := [.reset] }).hostMove = .reset ∧
    ({ State.reset with hostTurns := [.load 255 1, .start] }).hostMove = .load 255 1 ∧
    ({ State.reset with hostTurns := [.start] }).hostMove = .start ∧
    ({ State.reset with hostTurns := [.start] }).state = .idle ∧
    State.reset.hostMove = .quiet ∧ State.reset.state ≠ .running ∧
    (running [] 0 zeros).hostMove = .quiet ∧ (running [] 0 zeros).state = .running := by decide

/-- StartSetsRunningOnly: IDLE under the invariant, with a quiet host after the start. -/
theorem witness_start :
    Inv { State.reset with hostTurns := [.start] } ∧
    ({ State.reset with hostTurns := [.start] }).state = .idle ∧
    (running [] 0 zeros).hostMove = .quiet :=
  ⟨⟨rfl, by decide, by decide, rfl, by decide, by decide, by decide⟩, by decide, by decide⟩

/-- ProgramLoadWritesTheCells, HostReadsTheEndStateWhenNotRunning: IDLE with a canonical memory, and
an address on either side of the boundary (B5). -/
theorem witness_load :
    State.reset.mem.wf = true ∧ State.reset.state = .idle ∧ InByteRange 255 ∧ ¬ InByteRange 256 ∧
    (running [] 0 zeros).state ≠ .idle ∧ State.reset.state ≠ .running := by decide

/-- MemoriesThatReadAlikeAreEqual: a canonical memory that is not empty. -/
theorem witness_canonical_memory :
    Memory.wf [(0, 1), (255, 7)] = true ∧ ∀ n, Memory.read [(0, 1), (255, 7)] n =
      Memory.read [(0, 1), (255, 7)] n :=
  ⟨by decide, fun _ => rfl⟩

/-- InRejectsThenTakes, UnansweredInWaitsForever (H7, H10). -/
theorem witness_waiting_in :
    (running [(255, 0x03880000)] 255 zeros).state = .running ∧
    (running [(255, 0x03880000)] 255 zeros).hostTurns = [] ∧
    InByteRange (running [(255, 0x03880000)] 255 zeros).pc ∧
    (running [(255, 0x03880000)] 255 zeros).fetched.op = 0x0E ∧
    (∀ b ∈ ([300, 256] : List Word), ¬ InByteRange b) ∧ InByteRange 255 := by
  refine ⟨by decide, by decide, by decide, by decide, fun b hb => ?_, by decide⟩
  rcases List.mem_pair.1 hb with rfl | rfl <;> decide

/-- InRejectsThenTakes, its end on H7's offers: the first step rejects, the second takes. -/
theorem witness_rejects_then_takes :
    (after (runSteps 2 { running [(0, 0x03880000)] 0 zeros with hostOffers := [300, 200] })).map
      (fun t => (t.pc, t.icount, t.inPort, t.regs))
    = some (1, 1, 200, #v[0, 200, 0, 0, 0, 0, 0, 0]) := by decide

/-- StoppedCoreStaysStopped: a stopped CORE whose host drives everything but reset. -/
theorem witness_stopped :
    ({ running [] 256 zeros with
      state := .faulted, cause := .pcOutOfRange, hostTurns := [.start, .load 0 1] }).ended = true ∧
    .reset ∉ ({ running [] 256 zeros with
      state := .faulted, cause := .pcOutOfRange,
      hostTurns := [.start, .load 0 1] }).hostTurns :=
  ⟨by decide, by simp⟩

end Sys2Proof.Tests
end

/-! SUPPORT and CLAIM. Which registers an instruction reads and writes (spec/10_state.md R21, R22):
what an execute phase leaves of the register file, and what it makes of a register that it does not
read. -/

namespace Sys2Proof.Machine

/-! ### The ends of an execute phase, from `Effect` back to `exec` -/

/-- `Effect` lists no end that `exec` does not reach: the converse of `effect_of_exec`. -/
theorem exec_of_effect {i : Instr} {s t : State} (h : Effect i s t) : exec i s = .next t := by
  cases h with
  | add | sub | mov | ldi | cmp | call | halt | int | out => rfl
  | load h | loadFault h => simp [exec, execLoad, effectiveAddress, dataRead, h]
  | store h | storeFault h => simp [exec, execStore, effectiveAddress, dataWrite, h]
  | jmp h | jmpFault h => simp [exec, execJmp, jumpInline, inlineAddress, dataRead, h]
  | ret h | retFault h => simp [exec, execRet, jumpInline, inlineAddress, dataRead, h]
  | beqTaken hk h | beqFault hk h =>
    simp [exec, execBeq, jumpInline, inlineAddress, dataRead, hk, h]
  | beqPast hk => simp [exec, execBeq, hk]
  | inpSilent h => simp [exec, execInp, inputTake, h]
  | inpRejects h hv | inpAccepts h hv => simp [exec, execInp, inputTake, h, hv]

/-! ### Writes: the frame of the register file -/

/-- The register file at the end of an execute phase: untouched, or with one write to the register
that R21 lists, and then the phase did not end in a fault. -/
theorem Effect.regs_cases {i : Instr} {s t : State} (h : Effect i s t) :
    t.regs = s.regs ∨
    ∃ rd x, writesOf i = some rd ∧ t.regs = s.regs.set rd x ∧ t.state = s.state := by
  cases h with
  | store | storeFault | cmp | jmp | jmpFault | ret | retFault | beqTaken | beqFault | beqPast
  | call | halt | int | out | loadFault | inpSilent | inpRejects => exact .inl rfl
  | load | add | sub | mov | ldi | inpAccepts => exact .inr ⟨_, _, rfl, rfl, rfl⟩

theorem Effect.regs_frame {i : Instr} {s t : State} {q : Reg} (h : Effect i s t)
    (hq : writesOf i ≠ some q) : t.regs[q] = s.regs[q] := by
  rcases h.regs_cases with e | ⟨rd, x, hw, e, -⟩
  · rw [e]
  · have hne : q ≠ rd := fun hqr => hq (hqr ▸ hw)
    rw [e, regs_set_get, if_neg hne]

theorem Effect.regs_of_faults {i : Instr} {s t : State} (h : Effect i s t)
    (ht : t.state = .faulted) (hs : s.state ≠ .faulted) : t.regs = s.regs := by
  rcases h.regs_cases with e | ⟨rd, x, -, -, hst⟩
  · exact e
  · exact absurd (hst ▸ ht) hs

/-! ### Reads: overwriting a register that the instruction does not read -/

theorem readReg_writeReg_of_notMem {l : List Reg} {q r : Reg} (hq : q ∉ l) (hr : r ∈ l) (v : Word)
    (s : State) : readReg r (writeReg q v s) = readReg r s := by
  rw [readReg_writeReg, if_neg (ne_of_mem_of_not_mem hr hq)]

theorem writeReg_writeReg_same (q : Reg) (v x : Word) (s : State) :
    writeReg q x (writeReg q v s) = writeReg q x s := by
  simp [writeReg]

theorem writeReg_comm {q r : Reg} (h : q ≠ r) (v x : Word) (s : State) :
    writeReg r x (writeReg q v s) = writeReg q v (writeReg r x s) := by
  simp only [writeReg, Vector.set_comm v x (Fin.val_ne_of_ne h)]

/-- `u` is what the end `t` of `i` from `s` becomes when `x[q]` held `v` before: `t` itself where
`i` has written `x[q]`, and else `t` with `v` still in `x[q]`. -/
def UnreadEnd (i : Instr) (q : Reg) (v : Word) (s t u : State) : Prop :=
  (writesOf i = some q ∧ u = t) ∨
  ((writesOf i = some q → t.icount = s.icount) ∧ u = writeReg q v t)

/-- R22: the write to the destination comes last, so it decides what `x[q]` holds where `q` is the
destination, and passes by `x[q]` elsewhere. -/
theorem unreadEnd_writeReg {i : Instr} {rd : Reg} (hw : writesOf i = some rd) (q : Reg) (v x : Word)
    (s s₀ : State) :
    UnreadEnd i q v s (retire (writeReg rd x s₀)) (retire (writeReg rd x (writeReg q v s₀))) := by
  by_cases h : q = rd
  · subst h
    exact .inl ⟨hw, by rw [writeReg_writeReg_same]⟩
  · refine .inr ⟨fun hq => absurd (Option.some.inj (hq.symm.trans hw)) h, ?_⟩
    rw [writeReg_comm h]
    rfl

/-- Every end of an execute phase after `x[q]` was overwritten, when the instruction does not read
`x[q]`: the guards and the values come out as before, because only the registers of `readsOf` enter
them. -/
theorem Effect.unreadEnd {i : Instr} {s t : State} {q : Reg} (h : Effect i s t)
    (hq : q ∉ readsOf i) (v : Word) :
    ∃ u, Effect i (writeReg q v s) u ∧ UnreadEnd i q v s t u := by
  have hr (r : Reg) (hmem : r ∈ readsOf i := by simp [readsOf]) :=
    readReg_writeReg_of_notMem hq hmem v s
  cases h with
  | @load rd ra _ h =>
    have ha := hr ra
    refine ⟨_, .load (ha ▸ h), ?_⟩
    rw [ha]
    exact unreadEnd_writeReg rfl ..
  | @loadFault rd ra _ h => exact ⟨_, .loadFault (hr ra ▸ h), .inr ⟨fun _ => rfl, rfl⟩⟩
  | @store rs ra _ h =>
    have ha := hr ra
    refine ⟨_, .store (ha ▸ h), .inr ⟨nofun, ?_⟩⟩
    rw [ha, hr rs]
    rfl
  | @storeFault rs ra _ h => exact ⟨_, .storeFault (hr ra ▸ h), .inr ⟨nofun, rfl⟩⟩
  | @add rd rs1 rs2 =>
    refine ⟨_, .add, ?_⟩
    rw [hr rs1, hr rs2]
    exact unreadEnd_writeReg rfl ..
  | @sub rd rs1 rs2 =>
    refine ⟨_, .sub, ?_⟩
    rw [hr rs1, hr rs2]
    exact unreadEnd_writeReg rfl ..
  | @mov rd rs =>
    refine ⟨_, .mov, ?_⟩
    rw [hr rs]
    exact unreadEnd_writeReg rfl ..
  | ldi => exact ⟨_, .ldi, unreadEnd_writeReg rfl ..⟩
  | cmp => exact ⟨_, .cmp, .inr ⟨nofun, rfl⟩⟩
  | jmp h => exact ⟨_, .jmp h, .inr ⟨nofun, rfl⟩⟩
  | jmpFault h => exact ⟨_, .jmpFault h, .inr ⟨nofun, rfl⟩⟩
  | ret h => exact ⟨_, .ret h, .inr ⟨nofun, rfl⟩⟩
  | retFault h => exact ⟨_, .retFault h, .inr ⟨nofun, rfl⟩⟩
  | @beqTaken r _ _ hk h => exact ⟨_, .beqTaken (hr r ▸ hk) h, .inr ⟨nofun, rfl⟩⟩
  | @beqFault r _ _ hk h => exact ⟨_, .beqFault (hr r ▸ hk) h, .inr ⟨nofun, rfl⟩⟩
  | @beqPast r _ _ hk => exact ⟨_, .beqPast (hr r ▸ hk), .inr ⟨nofun, rfl⟩⟩
  | @call rt =>
    refine ⟨_, .call, .inr ⟨nofun, ?_⟩⟩
    rw [hr rt]
    rfl
  | halt => exact ⟨_, .halt, .inr ⟨nofun, rfl⟩⟩
  | int => exact ⟨_, .int, .inr ⟨nofun, rfl⟩⟩
  | @out rs =>
    refine ⟨_, .out, .inr ⟨nofun, ?_⟩⟩
    rw [hr rs]
    rfl
  | inpSilent h => exact ⟨_, .inpSilent h, .inr ⟨fun _ => rfl, rfl⟩⟩
  | inpRejects h hv => exact ⟨_, .inpRejects h hv, .inr ⟨fun _ => rfl, rfl⟩⟩
  | inpAccepts h hv => exact ⟨_, .inpAccepts h hv, unreadEnd_writeReg rfl ..⟩

/-- What R21's noninterference asks of two ends. -/
theorem UnreadEnd.agrees {i : Instr} {q : Reg} {v : Word} {s t u : State}
    (h : UnreadEnd i q v s t u) :
    u = { t with regs := u.regs } ∧ (∀ p : Reg, p ≠ q → u.regs[p] = t.regs[p]) ∧
    (writesOf i = some q → t.icount = s.icount + 1 → u.regs[q] = t.regs[q]) := by
  rcases h with ⟨-, rfl⟩ | ⟨hc, rfl⟩
  · exact ⟨rfl, fun _ _ => rfl, fun _ _ => rfl⟩
  · refine ⟨rfl, fun p hp => ?_, fun hw ht => ?_⟩
    · rw [writeReg_regs, regs_set_get, if_neg hp]
    · have : s.icount ≠ s.icount + 1 := by simp
      exact absurd ((hc hw).symm.trans ht) this

/-- Settles O31: the frame of `Effect` gives the writes, and `Effect.unreadEnd` the reads. -/
theorem registersReadAndWrittenAsListed : Obligations.RegistersReadAndWrittenAsListed := by
  unfold Obligations.RegistersReadAndWrittenAsListed
  refine ⟨fun i s t h => ?_, fun i s q v hq => ?_⟩
  · have he := effect_of_exec h
    exact ⟨fun q hq => he.regs_frame hq, he.regs_of_faults⟩
  · obtain ⟨t, ht, he⟩ := exec_effect i s
    obtain ⟨u, hu, hend⟩ := he.unreadEnd hq v
    exact ⟨t, u, ht, exec_of_effect hu, hend.agrees⟩

end Sys2Proof.Machine

/-! SUPPORT and CLAIM. The fields of a word (spec/30_encoding.md R81, R82, R85): `encode` packs what
`decode` cuts, and the bits outside an instruction's fields do not matter. -/

namespace Sys2Proof

/-- Two words that agree under a mask agree on every field that the mask covers. -/
theorem extractLsb'_eq_of_and_eq {w v m : Word} {start len : Nat} (h : w &&& m = v &&& m)
    (hm : m.extractLsb' start len = BitVec.allOnes len) :
    w.extractLsb' start len = v.extractLsb' start len := by
  have := congrArg (BitVec.extractLsb' start len) h
  rwa [BitVec.extractLsb'_and, BitVec.extractLsb'_and, hm, BitVec.and_allOnes,
    BitVec.and_allOnes] at this

/-- R81: bits 31:30 are in no field. -/
theorem fieldsOf_and_low30 (w : Word) : fieldsOf (w &&& 0x3FFFFFFF) = fieldsOf w := by
  have h : w &&& 0x3FFFFFFF &&& 0x3FFFFFFF = w &&& 0x3FFFFFFF := by
    rw [BitVec.and_assoc, BitVec.and_self]
  rw [fieldsOf, fieldsOf, Fields.mk.injEq]
  exact ⟨extractLsb'_eq_of_and_eq h rfl, extractLsb'_eq_of_and_eq h rfl,
    extractLsb'_eq_of_and_eq h rfl, extractLsb'_eq_of_and_eq h rfl⟩

/-- R80: `r3` is `w[2:0]`. -/
theorem fieldsOf_r3 (w : Word) : (fieldsOf w).r3 = w.extractLsb' 0 3 :=
  BitVec.extractLsb'_extractLsb'_of_le (by decide)

/-- The fields decode to the instruction that they spell: the converse of `spelledBy_of_decode`. -/
theorem decodeFields_of_spelledBy {f : Fields} {i : Instr} (h : SpelledBy f i) :
    decodeFields f = .ok i := by
  cases i <;> simp_all [SpelledBy, decodeFields]

/-- Settles O2: the fields are cut at R80's positions, and cutting a packed word gives back the
fields, which fit their widths. -/
theorem decodeExtractsTheEncodedFields : Obligations.DecodeExtractsTheEncodedFields := by
  unfold Obligations.DecodeExtractsTheEncodedFields
  refine ⟨fun w => ⟨rfl, rfl, rfl, rfl, fieldsOf_r3 w⟩, fun op r1 r2 imm h0 h1 h2 h3 => ?_⟩
  refine ⟨_, encodeFields_ok (by omega) (by omega) (by omega) (by omega), ?_⟩
  rw [fieldsOf_packWord]
  simp only [BitVec.toNat_ofNat]
  exact ⟨Nat.mod_eq_of_lt h0, Nat.mod_eq_of_lt h1, Nat.mod_eq_of_lt h2, Nat.mod_eq_of_lt h3⟩

end Sys2Proof

namespace Sys2Proof.Machine

/-- The two words agree on the bits that count for the first word's opcode (R81, R82). -/
def AgreeOnUsedBits (w v : Word) : Prop :=
  w &&& usedBits (fieldsOf w).op = v &&& usedBits (fieldsOf w).op

/-- The opcode counts in every word. -/
theorem usedBits_covers_op (op : BitVec 8) :
    (usedBits op).extractLsb' 22 8 = BitVec.allOnes 8 := by
  unfold usedBits
  split <;> rfl

/-! A field that the mask covers is the same in both words. -/

section Fields

variable {w v : Word} (h : AgreeOnUsedBits w v)
include h

theorem AgreeOnUsedBits.op_eq : (fieldsOf w).op = (fieldsOf v).op :=
  extractLsb'_eq_of_and_eq h (usedBits_covers_op _)

theorem AgreeOnUsedBits.r1_eq
    (hm : (usedBits (fieldsOf w).op).extractLsb' 19 3 = BitVec.allOnes 3) :
    (fieldsOf w).r1 = (fieldsOf v).r1 := extractLsb'_eq_of_and_eq h hm

theorem AgreeOnUsedBits.r2_eq
    (hm : (usedBits (fieldsOf w).op).extractLsb' 16 3 = BitVec.allOnes 3) :
    (fieldsOf w).r2 = (fieldsOf v).r2 := extractLsb'_eq_of_and_eq h hm

theorem AgreeOnUsedBits.r3_eq
    (hm : (usedBits (fieldsOf w).op).extractLsb' 0 3 = BitVec.allOnes 3) :
    (fieldsOf w).r3 = (fieldsOf v).r3 := by
  rw [fieldsOf_r3, fieldsOf_r3]
  exact extractLsb'_eq_of_and_eq h hm

theorem AgreeOnUsedBits.imm_eq
    (hm : (usedBits (fieldsOf w).op).extractLsb' 0 16 = BitVec.allOnes 16) :
    (fieldsOf w).imm = (fieldsOf v).imm := extractLsb'_eq_of_and_eq h hm

end Fields

theorem AgreeOnUsedBits.symm {w v : Word} (h : AgreeOnUsedBits w v) : AgreeOnUsedBits v w := by
  unfold AgreeOnUsedBits
  rw [← h.op_eq]
  exact Eq.symm h

/-- R82: when `w` spells an instruction, `v` spells one with the same execute phase. It is the same
instruction, but for CMP, whose two operands have no effect. -/
theorem AgreeOnUsedBits.spells_alike {w v : Word} {i : Instr} (h : AgreeOnUsedBits w v)
    (hi : SpelledBy (fieldsOf w) i) :
    ∃ j, SpelledBy (fieldsOf v) j ∧ ∀ s, exec j s = exec i s := by
  have hop := h.op_eq.symm
  cases i with
  | cmp =>
    obtain ⟨e, -, -⟩ := hi
    exact ⟨.cmp _ _, ⟨hop.trans e, rfl, rfl⟩, fun _ => rfl⟩
  | jmp | ret | int | halt =>
    refine ⟨_, ?_, fun _ => rfl⟩
    exact hop.trans hi
  | call | out | inp =>
    obtain ⟨e, rfl⟩ := hi
    refine ⟨_, ?_, fun _ => rfl⟩
    exact ⟨hop.trans e, congrArg _ (h.r1_eq (e ▸ rfl))⟩
  | load | store | mov | beq =>
    obtain ⟨e, rfl, rfl⟩ := hi
    refine ⟨_, ?_, fun _ => rfl⟩
    exact ⟨hop.trans e, congrArg _ (h.r1_eq (e ▸ rfl)), congrArg _ (h.r2_eq (e ▸ rfl))⟩
  | ldi =>
    obtain ⟨e, rfl, rfl⟩ := hi
    refine ⟨_, ?_, fun _ => rfl⟩
    exact ⟨hop.trans e, congrArg _ (h.r1_eq (e ▸ rfl)), congrArg _ (h.imm_eq (e ▸ rfl))⟩
  | add | sub =>
    obtain ⟨e, rfl, rfl, rfl⟩ := hi
    refine ⟨_, ?_, fun _ => rfl⟩
    exact ⟨hop.trans e, congrArg _ (h.r1_eq (e ▸ rfl)), congrArg _ (h.r2_eq (e ▸ rfl)),
      congrArg _ (h.r3_eq (e ▸ rfl))⟩

/-- Words that agree on the bits that count execute alike; a word that stands for no instruction
agrees only with such words. -/
theorem AgreeOnUsedBits.executeWord_eq {w v : Word} (h : AgreeOnUsedBits w v) (s : State) :
    executeWord w s = executeWord v s := by
  cases hw : decode w with
  | ok i =>
    obtain ⟨j, hj, he⟩ := h.spells_alike (spelledBy_of_decode hw)
    rw [executeWord_ok hw, executeWord_ok (decodeFields_of_spelledBy hj), he]
  | error e =>
    cases hv : decode v with
    | ok j =>
      obtain ⟨i, hi, -⟩ := h.symm.spells_alike (spelledBy_of_decode hv)
      exact absurd (hw.symm.trans (decodeFields_of_spelledBy hi)) nofun
    | error e' => rw [executeWord_error hw, executeWord_error hv]

/-- Settles O7: bits 31:30 are in no field, and the fields that an instruction uses decide its
execute phase. -/
theorem ignoredBitsDoNotMatter : Obligations.IgnoredBitsDoNotMatter := by
  unfold Obligations.IgnoredBitsDoNotMatter
  refine ⟨fun w => ?_, fun _ _ s h => AgreeOnUsedBits.executeWord_eq h s⟩
  rw [decode_eq, decode_eq, fieldsOf_and_low30]

end Sys2Proof.Machine

/-! SUPPORT and CLAIM. The ends of the instruction cycle before the execute phase of a handler
(spec/40_cycle.md R112, R114, R116): the fetch fault, the halt check and the dispatch fault. -/

namespace Sys2Proof

/-- R89: an illegal opcode decodes to nothing, and the error names it: the converse of
`undefined_of_decode`. -/
theorem decodeFields_of_undefined {f : Fields} (h : Machine.Undefined f.op) :
    decodeFields f = .error (.undefinedOpcode f.op) := by
  have hop : f.op.toNat = 0x0C ∨ 0x10 ≤ f.op.toNat := h.imp_left (congrArg BitVec.toNat)
  unfold decodeFields
  split
  on_goal 16 => rfl
  all_goals omega

end Sys2Proof

namespace Sys2Proof.Machine

/-! ### A step of the CORE, by its fetch -/

section Fetch

variable {s : State} (h : s.coreMoves = true)
include h

theorem step_of_fetch_outside (hp : ¬ InByteRange s.pc) :
    step s = .next (raiseFault .pcOutOfRange s.atFetch) := by
  rw [step_of_coreMoves h]
  exact cycle_outside ((not_inByteRange_iff _).1 hp)

theorem step_of_decode_ok (hp : InByteRange s.pc) {i : Instr}
    (hd : decodeFields s.fetched = .ok i) :
    step s = exec i (advancePc s.atFetch) := by
  rw [step_of_coreMoves h, cycle_inRange (s := s.atFetch) ((inByteRange_iff _).1 hp)]
  exact executeWord_ok hd

theorem step_of_decode_error (hp : InByteRange s.pc) {e : DecodeError}
    (hd : decodeFields s.fetched = .error e) :
    step s = .next (raiseFault .unknownOpcode (advancePc s.atFetch)) := by
  rw [step_of_coreMoves h, cycle_inRange (s := s.atFetch) ((inByteRange_iff _).1 hp)]
  exact executeWord_error hd

end Fetch

/-! ### The claims -/

/-- Settles O10: the cycle ends at the fetch range check, in `raiseFault` alone. -/
theorem fetchOutOfRangeFaults : Obligations.FetchOutOfRangeFaults := by
  unfold Obligations.FetchOutOfRangeFaults
  intro s h hp
  exact ⟨_, step_of_fetch_outside h hp, rfl⟩

/-- Settles O11: the opcode 0x0F alone spells HALT, whose execute phase is the halt check. -/
theorem haltOpcodeHaltsTheRun : Obligations.HaltOpcodeHaltsTheRun := by
  unfold Obligations.HaltOpcodeHaltsTheRun
  intro s h hp hop
  have hd : decodeFields s.fetched = .ok .halt := decodeFields_of_spelledBy hop
  exact ⟨haltRun (advancePc s.atFetch), step_of_decode_ok h hp hd, rfl⟩

/-- Settles O12: an illegal opcode decodes to nothing, and the dispatch raises its fault. -/
theorem undefinedOpcodeFaults : Obligations.UndefinedOpcodeFaults := by
  unfold Obligations.UndefinedOpcodeFaults
  intro s h hp hop
  exact ⟨_, step_of_decode_error h hp (decodeFields_of_undefined hop), rfl⟩

end Sys2Proof.Machine

/-! SUPPORT and CLAIM. The alu (spec/41_alu.md R129 to R140): ADD, SUB, MOV, LDI and CMP
are told by their opcode alone, and each has one end, which retires. -/

namespace Sys2Proof

/-- A word whose fields spell an instruction decodes to it. -/
theorem decode_of_spelledBy {w : Word} {i : Instr} (h : SpelledBy (fieldsOf w) i) :
    decode w = .ok i :=
  (decode_eq w).trans (decodeFields_of_spelledBy h)

end Sys2Proof

namespace Sys2Proof.Machine

/-! ### The values -/

/-- R137: sign extension keeps the signed reading of LDI's 16-bit pattern. -/
theorem ldiValue_toInt (imm : Nat) : (ldiValue imm).toInt = (BitVec.ofNat 16 imm).toInt :=
  BitVec.toInt_signExtend_of_le (by decide)

/-- R137: the number that a 16-bit pattern spells. -/
theorem ldiValue_toInt_of_le {imm : Nat} (h : imm ≤ 0xFFFF) :
    (ldiValue imm).toInt = if imm < 0x8000 then (imm : Int) else (imm : Int) - 65536 := by
  rw [ldiValue_toInt, BitVec.toInt_eq_toNat_cond, BitVec.toNat_ofNat, Nat.mod_eq_of_lt (by omega)]
  split <;> split <;> omega

/-- R137: no LDI loads a value outside the signed range of 16 bits. -/
theorem ldiValue_toInt_bounds (imm : Nat) :
    -32768 ≤ (ldiValue imm).toInt ∧ (ldiValue imm).toInt ≤ 32767 := by
  rw [ldiValue_toInt]
  exact ⟨BitVec.le_toInt _, Int.le_of_lt_add_one BitVec.toInt_lt⟩

/-- R129: the unsigned reading of a difference is the difference of the readings modulo 2^32. -/
theorem toNat_sub_eq_emod (a b : Word) :
    ((a - b).toNat : Int) = ((a.toNat : Int) - b.toNat) % 2 ^ 32 := by
  have hb := b.isLt
  rw [BitVec.toNat_sub]
  omega

/-- The destination after an instruction that retires with a write to it. -/
theorem retire_writeReg_regs_self (rd : Reg) (v : Word) (s : State) :
    (retire (writeReg rd v s)).regs[rd] = v := by
  rw [retire_regs, writeReg_regs, regs_set_get, if_pos rfl]

/-! ### The claims -/

/-- Settles O17: the opcode and three register fields spell ADD, whose only end is `Effect.add`. -/
theorem addWritesTheSum : Obligations.AddWritesTheSum := by
  unfold Obligations.AddWritesTheSum
  refine ⟨fun w h => ?_, fun _ _ _ => rfl, fun _ _ _ _ => exec_of_effect .add⟩
  exact decode_of_spelledBy ⟨h, rfl, rfl, congrArg regOf (fieldsOf_r3 w).symm⟩

/-- Settles O18: the opcode and three register fields spell SUB, whose only end is `Effect.sub`. -/
theorem subWritesTheDifference : Obligations.SubWritesTheDifference := by
  unfold Obligations.SubWritesTheDifference
  refine ⟨fun w h => ?_, fun _ _ _ => rfl, fun _ _ _ _ => exec_of_effect .sub⟩
  exact decode_of_spelledBy ⟨h, rfl, rfl, congrArg regOf (fieldsOf_r3 w).symm⟩

/-- Settles O19: the opcode and two register fields spell MOV, whose only end is `Effect.mov`. -/
theorem movCopiesTheRegister : Obligations.MovCopiesTheRegister := by
  unfold Obligations.MovCopiesTheRegister
  refine ⟨fun w h => ?_, fun _ _ => rfl, fun _ _ _ => exec_of_effect .mov⟩
  exact decode_of_spelledBy ⟨h, rfl, rfl⟩

/-- Settles O20: the opcode, `r1` and `imm` spell LDI, whose only end writes `ldiValue`. -/
theorem ldiLoadsTheSignExtendedImmediate : Obligations.LdiLoadsTheSignExtendedImmediate := by
  unfold Obligations.LdiLoadsTheSignExtendedImmediate
  refine ⟨fun w h => ?_, fun _ _ => rfl, fun rd imm s hwf => ?_⟩
  · exact decode_of_spelledBy ⟨h, rfl, rfl⟩
  · have himm : imm ≤ 0xFFFF := of_decide_eq_true hwf
    obtain ⟨hlo, hhi⟩ := ldiValue_toInt_bounds imm
    exact ⟨ldiValue imm, ldiValue_toInt_of_le himm, hlo, hhi, exec_of_effect .ldi⟩

/-- Settles O21: the opcode spells CMP, whatever its registers, and its only end is to retire. -/
theorem cmpHasNoEffect : Obligations.CmpHasNoEffect := by
  unfold Obligations.CmpHasNoEffect
  refine ⟨fun w h => ?_, fun _ _ => rfl, fun _ _ _ => exec_of_effect .cmp⟩
  exact ⟨regOf (fieldsOf w).r1, regOf (fieldsOf w).r2, decode_of_spelledBy ⟨h, rfl, rfl⟩⟩

/-- Settles O30: the only end of ADD and of SUB writes the sum or difference of the words, whose two
readings wrap, and leaves `state` and `cause`. -/
theorem arithmeticWrapsModulo2To32 : Obligations.ArithmeticWrapsModulo2To32 := by
  unfold Obligations.ArithmeticWrapsModulo2To32
  refine ⟨fun rd rs1 rs2 s => ⟨_, exec_of_effect .add, rfl, rfl, ?_⟩,
    fun rd rs1 rs2 s => ⟨_, exec_of_effect .sub, rfl, rfl, ?_⟩⟩
  · rw [retire_writeReg_regs_self]
    exact ⟨BitVec.toNat_add .., BitVec.toInt_add ..⟩
  · rw [retire_writeReg_regs_self]
    exact ⟨toNat_sub_eq_emod .., BitVec.toInt_sub ..⟩

end Sys2Proof.Machine

/-! SUPPORT and CLAIM. Data accesses (spec/42_load_store.md R150, R152): the range check on the address
register parts each of LOAD and STORE into a transfer that retires and a fault. -/

namespace Sys2Proof.Machine

/-! ### The cells after a write in range -/

section Write

variable {m : Memory} {a : Word} (hm : m.wf = true) (ha : inRange a = true) (v : Word)
include hm

include ha in
theorem Memory.read_writeAt_same : (m.writeAt a v).read a.toNat = v := by
  rw [Memory.read_writeAt _ _ _ hm, if_pos ⟨ha, rfl⟩]

theorem Memory.read_writeAt_other {n : Nat} (hn : n ≠ a.toNat) :
    (m.writeAt a v).read n = m.read n := by
  rw [Memory.read_writeAt _ _ _ hm, if_neg fun h => hn h.2]

end Write

/-! ### The claims -/

/-- Settles O15: the opcode and two register fields spell LOAD, which ends in `Effect.load` where the
address is in range and in `Effect.loadFault` elsewhere. -/
theorem loadReadsTheAddressedCell : Obligations.LoadReadsTheAddressedCell := by
  unfold Obligations.LoadReadsTheAddressedCell
  refine ⟨fun w h => ?_, fun _ _ => rfl, fun rd ra s => ⟨fun h => ?_, fun h => ?_⟩⟩
  · exact decode_of_spelledBy ⟨h, rfl, rfl⟩
  · exact exec_of_effect (.load ((inByteRange_iff _).1 h))
  · exact exec_of_effect (.loadFault ((not_inByteRange_iff _).1 h))

/-- Settles O16: the opcode and two register fields spell STORE, which ends in `Effect.store` where the
address is in range, with one cell written, and in `Effect.storeFault` elsewhere. -/
theorem storeWritesTheAddressedCell : Obligations.StoreWritesTheAddressedCell := by
  unfold Obligations.StoreWritesTheAddressedCell
  refine ⟨fun w h => ?_, fun _ _ => rfl, fun rs ra s hm => ⟨fun h => ?_, fun h => ?_⟩⟩
  · exact decode_of_spelledBy ⟨h, rfl, rfl⟩
  · have ha := (inByteRange_iff _).1 h
    exact ⟨_, exec_of_effect (.store ha), Memory.read_writeAt_same hm ha _,
      fun n hn => Memory.read_writeAt_other hm _ hn, rfl⟩
  · exact exec_of_effect (.storeFault ((not_inByteRange_iff _).1 h))

end Sys2Proof.Machine

/-! SUPPORT and CLAIM. Control transfer (spec/43_control_transfer.md R170 to R184): the next `pc` as
the single selection of `program_counter_mux`, and the transfers through the inline word, JMP, RET and
BEQ. -/

namespace Sys2Proof.Machine

/-! ### The selection -/

section Selection

variable {s : State}

theorem pcSource_outside (hp : inRange s.pc = false) : pcSource s = .hold := by
  simp [pcSource, hp]

theorem pcSource_of_undefined (hp : inRange s.pc = true) (hop : Undefined s.fetched.op) :
    pcSource s = .seq := by
  have hd : decode (fetchWord s) = .error (.undefinedOpcode s.fetched.op) :=
    decodeFields_of_undefined hop
  simp [pcSource, hp, hd]

theorem pcSource_of_decode_ok (hp : inRange s.pc = true) {i : Instr}
    (hd : decode (s.mem.read s.pc.toNat) = .ok i) : pcSource s = instrPcSource i s := by
  have hd' : decode (fetchWord s) = .ok i := hd
  simp [pcSource, hp, hd']

variable (s)

theorem pcMux_inlineSource_inRange (h : inRange (s.pc + 1) = true) :
    pcMux (inlineSource s) s = readCell (s.pc + 1) s := by
  rw [inlineSource, if_pos h]
  rfl

theorem pcMux_inlineSource_outside (h : inRange (s.pc + 1) = false) :
    pcMux (inlineSource s) s = s.pc + 1 := by
  rw [inlineSource, if_neg (Bool.eq_false_iff.1 h)]
  rfl

theorem pcMux_beq_equal {r : Reg} {k : Nat} (h : aluEq (readReg r s) k = true) :
    pcMux (instrPcSource (.beq r k) s) s = pcMux (inlineSource s) s := by
  simp [instrPcSource, h]

theorem pcMux_beq_different {r : Reg} {k : Nat} (h : aluEq (readReg r s) k = false) :
    pcMux (instrPcSource (.beq r k) s) s = s.pc + 1 + 1 := by
  rw [show s.pc + 1 + 1 = s.pc + 2 from BitVec.add_assoc ..]
  simp [instrPcSource, h, pcMux]

end Selection

/-! ### The ends of a step -/

/-- R119: `s` to `t` is no step, but a wait at an IN. -/
abbrev Waited (s t : State) : Prop := s.atIn = true ∧ t.icount = s.icount

/-- What the CORE makes of `pc` when it moves from `s` to `t`: it keeps `pc` in a wait (R119), and
loads the value of the source `src` in a step (R170). -/
def PcEnds (src : PcSource) (s t : State) : Prop :=
  (Waited s t ∧ t.pc = s.pc) ∨ (¬ Waited s t ∧ t.pc = pcMux src s)

section NotWaited

variable {s t : State}

theorem not_waited_outside (hp : inRange s.pc = false) : ¬ Waited s t := by
  simp [State.atIn, hp]

theorem not_waited_of_op {op : BitVec 8} (h : s.fetched.op = op) (hop : op ≠ 0x0E) :
    ¬ Waited s t := by
  rintro ⟨hin, -⟩
  simp only [State.atIn, Bool.and_eq_true, beq_iff_eq] at hin
  exact hop (h.symm.trans hin.2)

theorem not_waited_of_undefined (h : Undefined s.fetched.op) : ¬ Waited s t := by
  refine not_waited_of_op rfl fun hop => ?_
  rw [hop] at h
  exact absurd h (by decide)

theorem not_waited_of_retired (h : t.icount = s.icount + 1) : ¬ Waited s t := by
  simp [h]

end NotWaited

/-- Every end of the execute phase, from the state after the fetch: the two writes of `pc` come to
the one selection, but for an IN that finds nothing to accept, which puts `pc` back. -/
theorem Effect.pcEnds {i : Instr} {s t : State} (hp : inRange s.pc = true)
    (hi : SpelledBy s.fetched i) (h : Effect i (advancePc s.atFetch) t) :
    PcEnds (instrPcSource i s) s t := by
  cases h with
  | load | store | add | sub | mov | ldi | cmp | call | out | inpAccepts =>
    exact .inr ⟨not_waited_of_retired rfl, rfl⟩
  | loadFault | storeFault => exact .inr ⟨not_waited_of_op hi.1 (by decide), rfl⟩
  | halt | int => exact .inr ⟨not_waited_of_op hi (by decide), rfl⟩
  | jmp h | ret h =>
    exact .inr ⟨not_waited_of_retired rfl, (pcMux_inlineSource_inRange s h).symm⟩
  | jmpFault h | retFault h =>
    exact .inr ⟨not_waited_of_op hi (by decide), (pcMux_inlineSource_outside s h).symm⟩
  | beqTaken hk h =>
    exact .inr ⟨not_waited_of_retired rfl,
      ((pcMux_beq_equal s hk).trans (pcMux_inlineSource_inRange s h)).symm⟩
  | beqFault hk h =>
    exact .inr ⟨not_waited_of_op hi.1 (by decide),
      ((pcMux_beq_equal s hk).trans (pcMux_inlineSource_outside s h)).symm⟩
  | beqPast hk =>
    exact .inr ⟨not_waited_of_retired rfl, (pcMux_beq_different s hk).symm⟩
  | inpSilent | inpRejects =>
    have hin : s.atIn = true := by simp [State.atIn, hp, hi.1]
    exact .inl ⟨⟨hin, rfl⟩, BitVec.add_sub_cancel ..⟩

theorem pcEnds_of_coreStep {s t : State} (h : s.coreMoves = true) (ht : step s = .next t) :
    PcEnds (pcSource s) s t := by
  rcases coreStep_cases h ht with ⟨hp, rfl⟩ | ⟨hp, hop, rfl⟩ | ⟨hp, i, hd, hi, he⟩
  · rw [pcSource_outside hp]
    exact .inr ⟨not_waited_outside hp, rfl⟩
  · rw [pcSource_of_undefined hp hop]
    exact .inr ⟨not_waited_of_undefined hop, rfl⟩
  · rw [pcSource_of_decode_ok hp hd]
    exact he.pcEnds hp hi

/-! ### BEQ's comparison -/

/-- R176: a literal that fits its field is the number it is compared as. -/
theorem beqLiteral_toNat {k : Nat} (hk : k ≤ 7) : (beqLiteral k).toNat = k := by
  simp only [beqLiteral, BitVec.toNat_setWidth, BitVec.toNat_ofNat]
  omega

theorem aluEq_iff {k : Nat} (hk : k ≤ 7) (a : Word) : aluEq a k = true ↔ a.toNat = k := by
  rw [aluEq, beq_iff_eq, ← BitVec.toNat_inj, beqLiteral_toNat hk]

theorem aluEq_eq_false_iff {k : Nat} (hk : k ≤ 7) (a : Word) :
    aluEq a k = false ↔ a.toNat ≠ k := by
  rw [← Bool.not_eq_true, aluEq_iff hk]

/-! ### The claims -/

/-- Settles O33: every end of a step of the CORE that is no wait leaves `pc` at the value of R170's
source. -/
theorem nextPcIsTheMuxSelection : Obligations.NextPcIsTheMuxSelection := by
  unfold Obligations.NextPcIsTheMuxSelection
  intro s t h ht
  rcases pcEnds_of_coreStep h ht with ⟨hw, hpc⟩ | ⟨hw, hpc⟩
  · rwa [if_pos hw]
  · rwa [if_neg hw]

/-- Settles O22: the opcode spells JMP, which ends in `Effect.jmp` where the inline word is in range
and in `Effect.jmpFault` elsewhere. -/
theorem jmpGoesThroughTheInlineWord : Obligations.JmpGoesThroughTheInlineWord := by
  unfold Obligations.JmpGoesThroughTheInlineWord
  refine ⟨fun w h => decode_of_spelledBy h, rfl, fun s => ⟨fun hp => ?_, fun hp => ?_⟩⟩
  · exact exec_of_effect (.jmp ((inByteRange_iff _).1 hp))
  · exact exec_of_effect (.jmpFault ((not_inByteRange_iff _).1 hp))

/-- Settles O23: the opcode spells RET, which ends in `Effect.ret` where the inline word is in range
and in `Effect.retFault` elsewhere. -/
theorem retGoesThroughTheInlineWord : Obligations.RetGoesThroughTheInlineWord := by
  unfold Obligations.RetGoesThroughTheInlineWord
  refine ⟨fun w h => decode_of_spelledBy h, rfl, fun s => ⟨fun hp => ?_, fun hp => ?_⟩⟩
  · exact exec_of_effect (.ret ((inByteRange_iff _).1 hp))
  · exact exec_of_effect (.retFault ((not_inByteRange_iff _).1 hp))

/-- Settles O24: the opcode, `r1` and `r2` spell BEQ; the comparison with a literal that fits, and
then the range of the inline word, choose among its three ends. -/
theorem beqBranchesOnTheLiteral : Obligations.BeqBranchesOnTheLiteral := by
  unfold Obligations.BeqBranchesOnTheLiteral
  refine ⟨fun w h => ?_, fun _ _ => rfl, fun r k s hwf => ?_⟩
  · exact decode_of_spelledBy ⟨h, rfl, rfl⟩
  · have hk : k ≤ 7 := of_decide_eq_true hwf
    refine ⟨fun heq hp => ?_, fun heq hp => ?_, fun hne => ?_⟩
    · exact exec_of_effect (.beqTaken ((aluEq_iff hk _).2 heq) ((inByteRange_iff _).1 hp))
    · exact exec_of_effect (.beqFault ((aluEq_iff hk _).2 heq) ((not_inByteRange_iff _).1 hp))
    · exact exec_of_effect (.beqPast ((aluEq_eq_false_iff hk _).2 hne))

end Sys2Proof.Machine

/-! SUPPORT and CLAIM. Interrupt and output (spec/44_system_io.md R203, R209, R210): INT always faults,
and OUT always retires with a publication, whatever value its register holds. -/

namespace Sys2Proof.Machine

/-! ### The output port -/

/-- R209: while `out_valid` is set, the host sees what `out_port` keeps. -/
theorem outSignal_of_outValid {s : State} (h : s.outValid = true) : outSignal s = some s.outPort :=
  if_pos h

/-- R209: the host sees the whole value that OutputPut is given. -/
@[simp] theorem outSignal_outputPut (v : Word) (s : State) : outSignal (outputPut v s) = some v :=
  outSignal_of_outValid (outputPut_outValid s v)

@[simp] theorem outSignal_retire (s : State) : outSignal (retire s) = outSignal s := rfl

/-! ### The claims -/

/-- Settles O27: the opcode alone spells INT, whose only end is `Effect.int`, the fault with code 4. -/
theorem intRaisesInterruptSignal : Obligations.IntRaisesInterruptSignal := by
  unfold Obligations.IntRaisesInterruptSignal
  exact ⟨fun w h => decode_of_spelledBy h, rfl, rfl, fun s => exec_of_effect .int⟩

/-- Settles O29: the opcode and `r1` spell OUT, whose only end, `Effect.out`, publishes the register
and retires. -/
theorem outPublishesTheRegister : Obligations.OutPublishesTheRegister := by
  unfold Obligations.OutPublishesTheRegister
  refine ⟨fun w h => ?_, fun _ => rfl, fun rs s => ⟨_, exec_of_effect .out, ?_, rfl⟩⟩
  · exact decode_of_spelledBy ⟨h, rfl⟩
  · rw [outSignal_retire, outSignal_outputPut]
    rfl

end Sys2Proof.Machine

/-! SUPPORT and CLAIM. The faults (spec/60_exceptions.md R220, R221): the condition of each cause,
the one end that raising it has, and that a step of the CORE reaches that end under exactly that
condition. -/

namespace Sys2Proof.Machine

/-! ### The condition and the end of each fault -/

/-- R220: LOAD or STORE addresses a cell outside memory. -/
abbrev DataAddressOutside (s : State) : Prop :=
  (s.fetched.op = 0x00 ∨ s.fetched.op = 0x01) ∧ ¬ InByteRange (readReg (regOf s.fetched.r2) s)

/-- R220: JMP, RET or a taken BEQ lies in the last cell, so that it has no inline word. -/
abbrev InlineWordOutside (s : State) : Prop :=
  s.pc = 255 ∧
    (s.fetched.op = 0x06 ∨ s.fetched.op = 0x08 ∨
      (s.fetched.op = 0x09 ∧ readReg (regOf s.fetched.r1) s = s.fetched.r2.setWidth 32))

/-- R220's table: the condition, in the state before the step, under which a cause is raised. -/
def FaultCondition (s : State) : Cause → Prop
  | .none => False
  | .pcOutOfRange => ¬ InByteRange s.pc
  | .unknownOpcode => InByteRange s.pc ∧ Undefined s.fetched.op
  | .addressOutOfRange => InByteRange s.pc ∧ (DataAddressOutside s ∨ InlineWordOutside s)
  | .interruptSignal => InByteRange s.pc ∧ s.fetched.op = 0x0A

/-- R221: the state after a step from `s` that raises `c`: the fetch has advanced `pc` unless it
raised the fault itself, and the faulting instruction has written nothing. -/
def faultEnd (c : Cause) (s : State) : State :=
  raiseFault c (setPc (if c = .pcOutOfRange then s.pc else s.pc + 1) s.atFetch)

/-- The comparison of a BEQ that was fetched, whose literal is a field. -/
theorem aluEq_field_iff (a : Word) (f : BitVec 3) :
    aluEq a f.toNat = true ↔ a = f.setWidth 32 := by
  simp [aluEq, beqLiteral]

/-! ### From the condition to the end -/

section Raises

variable {s : State} (h : s.coreMoves = true)
include h

/-- A fetched instruction whose execute phase can end in a fault ends the step in it. -/
theorem step_of_faultEffect (hp : InByteRange s.pc) {i : Instr} (hi : SpelledBy s.fetched i)
    {c : Cause} (he : Effect i (advancePc s.atFetch) (raiseFault c (advancePc s.atFetch))) :
    step s = .next (raiseFault c (advancePc s.atFetch)) :=
  (step_of_decode_ok h hp (decodeFields_of_spelledBy hi)).trans (exec_of_effect he)

theorem step_of_dataAddressOutside (hp : InByteRange s.pc) (ha : DataAddressOutside s) :
    step s = .next (faultEnd .addressOutOfRange s) := by
  obtain ⟨hop, hea⟩ := ha
  rw [not_inByteRange_iff] at hea
  rcases hop with hop | hop
  · exact step_of_faultEffect h hp (i := .load _ _) ⟨hop, rfl, rfl⟩ (.loadFault hea)
  · exact step_of_faultEffect h hp (i := .store _ _) ⟨hop, rfl, rfl⟩ (.storeFault hea)

theorem step_of_inlineWordOutside (hp : InByteRange s.pc) (ha : InlineWordOutside s) :
    step s = .next (faultEnd .addressOutOfRange s) := by
  obtain ⟨hpc, hop⟩ := ha
  have hout : inRange (s.pc + 1) = false := (succ_outside_iff ((inByteRange_iff _).1 hp)).2 hpc
  rcases hop with hop | hop | ⟨hop, heq⟩
  · exact step_of_faultEffect h hp (i := .jmp) hop (.jmpFault hout)
  · exact step_of_faultEffect h hp (i := .ret) hop (.retFault hout)
  · exact step_of_faultEffect h hp (i := .beq _ _) ⟨hop, rfl, rfl⟩
      (.beqFault ((aluEq_field_iff _ _).2 heq) hout)

theorem step_of_faultCondition {c : Cause} (hc : FaultCondition s c) :
    step s = .next (faultEnd c s) := by
  cases c with
  | none => exact hc.elim
  | pcOutOfRange => exact step_of_fetch_outside h hc
  | unknownOpcode =>
    obtain ⟨hp, hop⟩ := hc
    exact step_of_decode_error h hp (decodeFields_of_undefined hop)
  | addressOutOfRange =>
    obtain ⟨hp, ha | ha⟩ := hc
    · exact step_of_dataAddressOutside h hp ha
    · exact step_of_inlineWordOutside h hp ha
  | interruptSignal =>
    obtain ⟨hp, hop⟩ := hc
    exact step_of_faultEffect h hp (i := .int) hop .int

end Raises

/-! ### From the end to the condition -/

/-- A step from `s` to `t` raised a fault, under the condition of its cause. -/
def FaultRaised (s t : State) : Prop := ∃ c, FaultCondition s c ∧ t = faultEnd c s

theorem faultRaised_of_addressOutside {s : State} (hp : InByteRange s.pc)
    (ha : DataAddressOutside s ∨ InlineWordOutside s) :
    FaultRaised s (raiseFault .addressOutOfRange (advancePc s.atFetch)) :=
  ⟨.addressOutOfRange, ⟨hp, ha⟩, rfl⟩

/-- An execute phase that ends FAULTED is one that R220 lists for its instruction. -/
theorem Effect.faultRaised {i : Instr} {s t : State} (hp : InByteRange s.pc)
    (hs : s.state ≠ .faulted) (hi : SpelledBy s.fetched i) (h : Effect i (advancePc s.atFetch) t)
    (ht : t.state = .faulted) : FaultRaised s t := by
  have last : inRange (advancePc s.atFetch).pc = false → s.pc = 255 :=
    (succ_outside_iff ((inByteRange_iff _).1 hp)).1
  cases h with
  | load | store | add | sub | mov | ldi | cmp | jmp | ret | beqTaken | beqPast | call | out
  | inpSilent | inpRejects | inpAccepts => exact absurd ht hs
  | halt => cases ht
  | loadFault hea =>
    obtain ⟨hop, -, rfl⟩ := hi
    exact faultRaised_of_addressOutside hp (.inl ⟨.inl hop, (not_inByteRange_iff _).2 hea⟩)
  | storeFault hea =>
    obtain ⟨hop, -, rfl⟩ := hi
    exact faultRaised_of_addressOutside hp (.inl ⟨.inr hop, (not_inByteRange_iff _).2 hea⟩)
  | jmpFault hout => exact faultRaised_of_addressOutside hp (.inr ⟨last hout, .inl hi⟩)
  | retFault hout => exact faultRaised_of_addressOutside hp (.inr ⟨last hout, .inr (.inl hi)⟩)
  | beqFault heq hout =>
    obtain ⟨hop, rfl, rfl⟩ := hi
    have hx := (aluEq_field_iff _ _).1 heq
    exact faultRaised_of_addressOutside hp (.inr ⟨last hout, .inr (.inr ⟨hop, hx⟩)⟩)
  | int => exact ⟨.interruptSignal, ⟨hp, hi⟩, rfl⟩

theorem faultRaised_of_coreStep {s t : State} (h : s.coreMoves = true) (ht : step s = .next t)
    (hf : t.state = .faulted) : FaultRaised s t := by
  rcases coreStep_cases h ht with ⟨hp, rfl⟩ | ⟨hp, hop, rfl⟩ | ⟨hp, i, -, hi, he⟩
  · exact ⟨.pcOutOfRange, (not_inByteRange_iff _).2 hp, rfl⟩
  · exact ⟨.unknownOpcode, ⟨(inByteRange_iff _).2 hp, hop⟩, rfl⟩
  · have hs : s.state ≠ .faulted := by simp [State.running_of_coreMoves h]
    exact he.faultRaised ((inByteRange_iff _).2 hp) hs hi hf

/-- A step of the CORE raises a cause if and only if its condition holds. -/
theorem coreStep_faults_iff {s t : State} (h : s.coreMoves = true) (ht : step s = .next t)
    (c : Cause) : t.state = .faulted ∧ t.cause = c ↔ FaultCondition s c := by
  constructor
  · rintro ⟨hf, rfl⟩
    obtain ⟨c, hc, rfl⟩ := faultRaised_of_coreStep h ht hf
    exact hc
  · intro hc
    cases ht.symm.trans (step_of_faultCondition h hc)
    exact ⟨rfl, rfl⟩

/-! ### The claims -/

/-- Settles O34: `FaultCondition` is R220's table, and `coreStep_faults_iff` reads each
of its rows. -/
theorem eachFaultUnderItsCondition : Obligations.EachFaultUnderItsCondition := by
  unfold Obligations.EachFaultUnderItsCondition
  refine ⟨fun s t h ht => ?_, rfl, rfl, rfl, rfl⟩
  have faults (c : Cause) := coreStep_faults_iff h ht c
  exact ⟨faults .pcOutOfRange, faults .unknownOpcode, faults .addressOutOfRange,
    faults .interruptSignal⟩

/-- Settles O35: a step that ends FAULTED ends in `faultEnd`, and NONE is never raised. -/
theorem faultChangesOnlyStatusAndPc : Obligations.FaultChangesOnlyStatusAndPc := by
  unfold Obligations.FaultChangesOnlyStatusAndPc
  intro s t h ht hf
  obtain ⟨c, hc, rfl⟩ := faultRaised_of_coreStep h ht hf
  have hne : c ≠ .none := by rintro rfl; exact hc
  exact ⟨hne, rfl, rfl⟩

end Sys2Proof.Machine

/-! SUPPORT and CLAIM. Program load (spec/70_reset_and_hazards.md R255): what a row of load writes in
IDLE makes of each cell, and that it leaves everything but the cells. -/

namespace Sys2Proof.Machine

/-! ### One load write -/

theorem hostLoad_outside {a : Word} (h : inRange a = false) (d : Word) (s : State) :
    hostLoad a d s = s := by
  by_cases hs : s.state = .idle
  · simp [hostLoad_idle hs, writeCell, Memory.writeAt, h]
  · exact hostLoad_ignored hs

/-- The load writes of a program are addressed by number, and each of its numbers names a cell. -/
theorem Memory.read_writeAt_ofNat {m : Memory} (hm : m.wf = true) {a : Nat} (ha : a < 256)
    (v : Word) (n : Nat) :
    (m.writeAt (BitVec.ofNat 32 a) v).read n = if n = a then v else m.read n := by
  have hnat : (BitVec.ofNat 32 a).toNat = a := Nat.mod_eq_of_lt (by omega)
  have hin : inRange (BitVec.ofNat 32 a) = true := (inRange_iff _).2 (by rwa [hnat])
  simp only [Memory.read_writeAt _ _ _ hm, hin, hnat, true_and]

/-! ### A row of load writes -/

/-- What a row of load writes starts from and keeps: IDLE with a canonical memory. -/
structure Loadable (s : State) : Prop where
  idle : s.state = .idle
  wf : s.mem.wf = true

theorem Loadable.writeCell {s : State} (h : Loadable s) (a v : Word) :
    Loadable (writeCell a v s) :=
  ⟨h.idle, Memory.writeAt_wf a v h.wf⟩

/-- In IDLE the first word goes to the first cell, and the CORE stays in IDLE for the next. -/
theorem loadFrom_cons {s : State} (hs : s.state = .idle) (k a : Nat) (w : Word)
    (words : List Word) :
    loadFrom (k + 1) a (w :: words) s =
      loadFrom k (a + 1) words (writeCell (BitVec.ofNat 32 a) w s) := by
  rw [loadFrom, hostLoad_idle hs]

/-- Only the memory changes. -/
theorem loadFrom_frame {s : State} (hs : s.state = .idle) (k a : Nat) (words : List Word) :
    loadFrom k a words s = { s with mem := (loadFrom k a words s).mem } := by
  induction k generalizing a words s with
  | zero => rfl
  | succ k ih =>
    cases words with
    | nil => rfl
    | cons w words =>
      rw [loadFrom_cons hs]
      exact ih ((writeCell_state ..).trans hs) (a + 1) words

/-- Words past the `k`-th are dropped. -/
theorem loadFrom_take (k a : Nat) (words : List Word) (s : State) :
    loadFrom k a (words.take k) s = loadFrom k a words s := by
  induction k generalizing a words s with
  | zero => rfl
  | succ k ih =>
    cases words with
    | nil => rfl
    | cons w words => exact ih (a + 1) words _

/-- No cell before the first address changes. -/
theorem loadFrom_read_below {s : State} (hs : Loadable s) {k a n : Nat} (hk : a + k ≤ 256)
    (hn : n < a) (words : List Word) :
    (loadFrom k a words s).mem.read n = s.mem.read n := by
  induction k generalizing a words s with
  | zero => rfl
  | succ k ih =>
    cases words with
    | nil => rfl
    | cons w words =>
      rw [loadFrom_cons hs.idle, ih (hs.writeCell _ w) (by omega) (by omega), writeCell_mem,
        Memory.read_writeAt_ofNat hs.wf (by omega), if_neg (by omega)]

/-- The `j`-th cell from the first address on takes the `j`-th word, if one of the `k` writes reaches
it. -/
theorem loadFrom_read {s : State} (hs : Loadable s) {k a : Nat} (hk : a + k ≤ 256)
    (words : List Word) (j : Nat) :
    (loadFrom k a words s).mem.read (a + j) =
      if j < min words.length k then words.getD j 0 else s.mem.read (a + j) := by
  induction k generalizing a words s j with
  | zero => simp [loadFrom]
  | succ k ih =>
    cases words with
    | nil => simp [loadFrom]
    | cons w words =>
      have hs' := hs.writeCell (BitVec.ofNat 32 a) w
      have written := Memory.read_writeAt_ofNat hs.wf (a := a) (by omega) w
      rw [loadFrom_cons hs.idle]
      cases j with
      | zero =>
        rw [loadFrom_read_below hs' (by omega) (by omega), writeCell_mem, written]
        simp
      | succ j =>
        have hcell : a + (j + 1) = a + 1 + j := by omega
        have hlater : a + 1 + j ≠ a := by omega
        rw [hcell, ih hs' (by omega), writeCell_mem, written, if_neg hlater]
        simp

/-! ### The claim -/

/-- Settles O44: a load write in IDLE is `writeCell`, which finds no cell out of range; a program is
a row of 256 load writes at most, from address 0. -/
theorem programLoadWritesTheCells : Obligations.ProgramLoadWritesTheCells := by
  unfold Obligations.ProgramLoadWritesTheCells
  refine ⟨fun s a d hm hs ha => ?_, fun s a d ha => ?_, fun s a d => hostLoad_ignored,
    fun s words hm hs => ⟨?_, ?_, fun n => ?_⟩⟩
  · rw [hostLoad_idle hs]
    refine ⟨rfl, fun n => ?_⟩
    rw [writeCell_mem, Memory.read_writeAt _ _ _ hm]
    simp only [(inByteRange_iff a).1 ha, true_and]
  · exact hostLoad_outside ((not_inByteRange_iff a).1 ha) d s
  · exact loadFrom_frame hs 256 0 words
  · exact (loadFrom_take 256 0 words s).symm
  · have h := loadFrom_read ⟨hs, hm⟩ (Nat.zero_add 256).le words n
    rwa [Nat.zero_add] at h

end Sys2Proof.Machine

/-! SUPPORT and CLAIM. The encoder against the decoder (spec/30_encoding.md R80 to R92): the
canonical word of an instruction spells it, and the words that stand for no instruction. -/

namespace Sys2Proof

/-! ### The packed word -/

/-- R84: the concatenation of fields that fit is the shift-and-or formula. -/
theorem packWord_eq_shift_or {op r1 r2 imm : Nat} (h0 : op ≤ 255) (h1 : r1 ≤ 7) (h2 : r2 ≤ 7)
    (h3 : imm ≤ 0xFFFF) :
    packWord op r1 r2 imm =
      BitVec.ofNat 32 op <<< 22 ||| BitVec.ofNat 32 r1 <<< 19 |||
        BitVec.ofNat 32 r2 <<< 16 ||| BitVec.ofNat 32 imm := by
  have fits {n b : Nat} (w : Nat) (h : n ≤ b) (hb : b < 2 ^ w) : n % 2 ^ w = n :=
    Nat.mod_eq_of_lt (h.trans_lt hb)
  apply BitVec.eq_of_toNat_eq
  simp only [packWord, BitVec.toNat_setWidth, BitVec.toNat_append, BitVec.toNat_or,
    BitVec.toNat_shiftLeft, BitVec.toNat_ofNat, fits 8 h0 (by decide), fits 3 h1 (by decide),
    fits 3 h2 (by decide), fits 16 h3 (by decide), fits 32 h0 (by decide), fits 32 h1 (by decide),
    fits 32 h2 (by decide), ← Nat.or_mod_two_pow]
  rw [Nat.shiftLeft_or_distrib, ← Nat.shiftLeft_add, Nat.or_assoc, Nat.or_assoc, Nat.or_assoc]

/-- R84: a field that exceeds its width gives an error. -/
theorem encodeFields_error {op r1 r2 imm : Nat}
    (h : op > 255 ∨ r1 > 7 ∨ r2 > 7 ∨ imm > 0xFFFF) :
    ∃ e, encodeFields op r1 r2 imm = .error e := by
  cases he : encodeFields op r1 r2 imm with
  | error e => exact ⟨e, rfl⟩
  | ok w =>
    obtain ⟨h0, h1, h2, h3, -⟩ := encodeFields_eq_ok he
    omega

/-! ### The canonical word -/

/-- R92: the canonical word of an instruction is a packed word with its opcode. -/
theorem encode_eq_encodeFields (i : Instr) :
    ∃ r1 r2 imm, encode i = encodeFields (Laws.opcode i) r1 r2 imm := by
  cases i <;> exact ⟨_, _, _, rfl⟩

/-- R84: an instruction whose literal fits has a word. -/
theorem encode_ok_of_wf {i : Instr} (h : WellFormed i) : ∃ w, encode i = .ok w := by
  cases i with
  | jmp | ret | int | halt => exact ⟨_, rfl⟩
  | call r | out r | inp r =>
    exact ⟨_, encodeFields_ok (by decide) r.is_le (by decide) (by decide)⟩
  | load r q | store r q | mov r q | cmp r q =>
    exact ⟨_, encodeFields_ok (by decide) r.is_le q.is_le (by decide)⟩
  | add r q p | sub r q p =>
    exact ⟨_, encodeFields_ok (by decide) r.is_le q.is_le (p.is_le.trans (by decide))⟩
  | beq r k => exact ⟨_, encodeFields_ok (by decide) r.is_le (of_decide_eq_true h) (by decide)⟩
  | ldi r imm => exact ⟨_, encodeFields_ok (by decide) r.is_le (by decide) (of_decide_eq_true h)⟩

theorem encode_error_of_not_wf {i : Instr} (h : ¬ WellFormed i) : ∃ e, encode i = .error e := by
  cases i with
  | beq r k =>
    have hk : ¬ k ≤ 7 := fun hk => h (decide_eq_true hk)
    exact encodeFields_error (by omega)
  | ldi r imm =>
    have himm : ¬ imm ≤ 0xFFFF := fun himm => h (decide_eq_true himm)
    exact encodeFields_error (by omega)
  | load | store | add | sub | mov | cmp | jmp | call | ret | int | out | inp | halt =>
    exact absurd rfl h

/-- The fields of the canonical word spell the instruction. -/
theorem spelledBy_of_encode {i : Instr} {w : Word} (h : encode i = .ok w) :
    SpelledBy (fieldsOf w) i := by
  cases i with
  | jmp | ret | int | halt =>
    obtain ⟨-, -, -, -, rfl⟩ := encodeFields_eq_ok h
    rw [fieldsOf_packWord]
    rfl
  | call r | out r | inp r =>
    obtain ⟨-, -, -, -, rfl⟩ := encodeFields_eq_ok h
    rw [fieldsOf_packWord]
    exact ⟨rfl, (regOf_ofNat r).symm⟩
  | load r q | store r q | mov r q | cmp r q =>
    obtain ⟨-, -, -, -, rfl⟩ := encodeFields_eq_ok h
    rw [fieldsOf_packWord]
    exact ⟨rfl, (regOf_ofNat r).symm, (regOf_ofNat q).symm⟩
  | add r q p | sub r q p =>
    obtain ⟨-, -, -, -, rfl⟩ := encodeFields_eq_ok h
    rw [fieldsOf_packWord]
    exact ⟨rfl, (regOf_ofNat r).symm, (regOf_ofNat q).symm, (r3_ofNat p).symm⟩
  | beq r k =>
    obtain ⟨-, -, hk, -, rfl⟩ := encodeFields_eq_ok h
    rw [fieldsOf_packWord]
    exact ⟨rfl, (regOf_ofNat r).symm, (Nat.mod_eq_of_lt (Nat.lt_succ_of_le hk)).symm⟩
  | ldi r imm =>
    obtain ⟨-, -, -, himm, rfl⟩ := encodeFields_eq_ok h
    rw [fieldsOf_packWord]
    exact ⟨rfl, (regOf_ofNat r).symm, (Nat.mod_eq_of_lt (Nat.lt_succ_of_le himm)).symm⟩

/-! ### What fields spell -/

theorem SpelledBy.op_eq {f : Fields} {i : Instr} (h : SpelledBy f i) :
    f.op = BitVec.ofNat 8 (Laws.opcode i) := by
  cases i with
  | jmp | ret | int | halt => exact h
  | load | store | add | sub | mov | cmp | call | beq | ldi | out | inp => exact h.1

/-- A literal that was cut from a field fits it. -/
theorem SpelledBy.wf {f : Fields} {i : Instr} (h : SpelledBy f i) : WellFormed i := by
  cases i with
  | beq =>
    obtain ⟨-, -, rfl⟩ := h
    exact decide_eq_true (Nat.le_of_lt_succ f.r2.isLt)
  | ldi =>
    obtain ⟨-, -, rfl⟩ := h
    exact decide_eq_true (Nat.le_of_lt_succ f.imm.isLt)
  | load | store | add | sub | mov | cmp | jmp | call | ret | int | out | inp | halt => rfl

/-- R84: the canonical word has its opcode in bits 29:22 and nothing above. -/
theorem and_mask_of_encode {i : Instr} {c w : Word} (h : encode i = .ok c)
    (hop : c.extractLsb' 22 8 = w.extractLsb' 22 8) : c &&& 0xFFC00000 = w &&& 0x3FC00000 := by
  obtain ⟨r1, r2, imm, he⟩ := encode_eq_encodeFields i
  obtain ⟨hhigh, -⟩ := Laws.TableMatch.of_encodeFields (he.symm.trans h)
  have hmask : (0xFFC00000 : Word) = 0xC0000000#32 ||| 0x3FC00000#32 := by decide
  calc c &&& 0xFFC00000
    _ = c &&& 0xC0000000#32 ||| c &&& 0x3FC00000#32 := by rw [hmask, BitVec.and_or_distrib_left]
    _ = c &&& 0x3FC00000#32 := by rw [hhigh, BitVec.zero_or]
    _ = w &&& 0x3FC00000#32 := by
      rw [Laws.TableMatch.and_mask, Laws.TableMatch.and_mask, hop]

/-! ### Small numbers -/

/-- A field above every bit of a number holds 0. -/
theorem extractLsb'_eq_zero_of_lt {w : Word} {start : Nat} (h : w.toNat < 2 ^ start) (len : Nat) :
    w.extractLsb' start len = 0#len := by
  apply BitVec.eq_of_toNat_eq
  rw [BitVec.extractLsb'_toNat, Nat.shiftRight_eq_div_pow, Nat.div_eq_of_lt h]
  simp

/-- A number that fits LOAD's ignored field has 0 in every field that LOAD uses. -/
theorem decode_of_toNat_lt {w : Word} (h : w.toNat < 65536) : decode w = .ok (.load 0 0) := by
  have hop := extractLsb'_eq_zero_of_lt (start := 22) (h.trans (by decide)) 8
  have hr1 := extractLsb'_eq_zero_of_lt (start := 19) (h.trans (by decide)) 3
  have hr2 := extractLsb'_eq_zero_of_lt (start := 16) h 3
  exact decode_of_spelledBy ⟨hop, congrArg regOf hr1.symm, congrArg regOf hr2.symm⟩

/-! ### The claims -/

/-- Settles O4: the canonical word spells the instruction, and fields spell one instruction
alone. -/
theorem decodeOfEncodeIsTheInstruction : Obligations.DecodeOfEncodeIsTheInstruction := by
  unfold Obligations.DecodeOfEncodeIsTheInstruction
  refine fun i => ⟨fun hwf => ?_, encode_error_of_not_wf⟩
  obtain ⟨w, hw⟩ := encode_ok_of_wf hwf
  exact ⟨w, hw, decode_of_spelledBy (spelledBy_of_encode hw)⟩

/-- Settles O3: each of `encodeFields`' tests is one of the widths. -/
theorem encodePacksOrFails : Obligations.EncodePacksOrFails := by
  unfold Obligations.EncodePacksOrFails
  refine fun op r1 r2 imm => ⟨fun ⟨h0, h1, h2, h3⟩ => ?_, encodeFields_error⟩
  rw [encodeFields_ok h0 h1 h2 h3, packWord_eq_shift_or h0 h1 h2 h3]

/-- Settles O5: the word and the canonical word spell the same instruction, so they share the
opcode. -/
theorem decodedWordHasACanonicalWord : Obligations.DecodedWordHasACanonicalWord := by
  unfold Obligations.DecodedWordHasACanonicalWord
  intro w i h
  have hw := spelledBy_of_decode h
  obtain ⟨c, hc⟩ := encode_ok_of_wf hw.wf
  have hsp := spelledBy_of_encode hc
  exact ⟨hw.wf, c, hc, decode_of_spelledBy hsp,
    and_mask_of_encode hc (hsp.op_eq.trans hw.op_eq.symm)⟩

/-- Settles O6: the default case of the decoder is reached by R89's opcodes alone. -/
theorem illegalOpcodesDecodeToNothing : Obligations.IllegalOpcodesDecodeToNothing := by
  unfold Obligations.IllegalOpcodesDecodeToNothing
  exact fun w => ⟨fun h => undefined_of_decode h, fun h => decodeFields_of_undefined h⟩

/-- Settles O8: bits 31:16 of a small number are 0. -/
theorem smallNumbersDecodeAsLoad : Obligations.SmallNumbersDecodeAsLoad := by
  unfold Obligations.SmallNumbersDecodeAsLoad
  intro n hn
  exact decode_of_toNat_lt ((Nat.mod_le ..).trans_lt hn)

/-- Settles O1: each of the words is cut and looked up. -/
theorem writtenOutWordsDecode : Obligations.WrittenOutWordsDecode := by
  unfold Obligations.WrittenOutWordsDecode
  and_intros <;> rfl

end Sys2Proof

/-! SUPPORT and CLAIM. The ends of a step of the CORE (spec/40_cycle.md R110 to R120): it retires,
halts, faults or waits; and what the end state of a run explains (spec/60_exceptions.md R220,
R224). -/

namespace Sys2Proof.Machine

/-! ### A step under the host's move -/

/-- Every step spends one of the host's turns (log entry 3). -/
def spendTurn (s : State) : State := { s with hostTurns := s.hostTurns.tail }

section HostMove

variable {s : State}

theorem step_of_reset (h : s.hostMove = .reset) :
    step s = .next (hostReset (spendTurn s)) := by
  rw [step_eq_takeTurn, h]
  rfl

theorem step_of_load {a d : Word} (h : s.hostMove = .load a d) :
    step s = .next (hostLoad a d (spendTurn s)) := by
  rw [step_eq_takeTurn, h]
  rfl

theorem step_of_start (h : s.hostMove = .start) :
    step s = .next (hostStart (spendTurn s)) := by
  rw [step_eq_takeTurn, h]
  rfl

theorem step_of_quiet_not_running (h : s.hostMove = .quiet) (hr : s.state ≠ .running) :
    step s = .next (spendTurn s) := by
  rw [step_eq_takeTurn, h]
  exact coreTurn_not_running hr

theorem coreMoves_of_quiet (h : s.hostMove = .quiet) (hr : s.state = .running) :
    s.coreMoves = true := by
  simp [State.coreMoves, h, hr]

/-- R113: a step of the CORE whose fetch is in range executes the fetched word. -/
theorem step_eq_executeWord (h : s.coreMoves = true) (hp : InByteRange s.pc) :
    step s = executeWord (s.mem.read s.pc.toNat) (advancePc s.atFetch) := by
  rw [step_of_coreMoves h]
  exact cycle_inRange ((inByteRange_iff _).1 hp)

end HostMove

/-! ### Every step has an end -/

/-- The CORE's next state, by its fetch and its dispatch. -/
theorem coreStep_answers {s : State} (h : s.coreMoves = true) : ∃ t, step s = .next t := by
  by_cases hp : InByteRange s.pc
  · cases hd : decodeFields s.fetched with
    | ok i =>
      obtain ⟨t, ht, -⟩ := exec_effect i (advancePc s.atFetch)
      exact ⟨t, (step_of_decode_ok h hp hd).trans ht⟩
    | error e => exact ⟨_, step_of_decode_error h hp hd⟩
  · exact ⟨_, step_of_fetch_outside h hp⟩

theorem step_answers (s : State) : ∃ t, step s = .next t := by
  cases hm : s.hostMove with
  | reset => exact ⟨_, step_of_reset hm⟩
  | load a d => exact ⟨_, step_of_load hm⟩
  | start => exact ⟨_, step_of_start hm⟩
  | quiet =>
    by_cases hr : s.state = .running
    · exact coreStep_answers (coreMoves_of_quiet hm hr)
    · exact ⟨_, step_of_quiet_not_running hm hr⟩

/-! ### The four ends of a step of the CORE -/

/-- R118: the step from `s` to `t` retired. An IN that retires clears `in_req`, and nothing else
touches it. -/
structure Retired (s t : State) : Prop where
  state : t.state = .running
  icount : t.icount = s.icount + 1
  cause : t.cause = s.cause
  inReq : t.inReq = false ∨ (s.atIn = false ∧ t.inReq = s.inReq)

/-- R114: the step from `s` to `t` was the halt check's. -/
structure Halted (s t : State) : Prop where
  pc : InByteRange s.pc
  op : s.fetched.op = 0x0F
  eq : t = haltRun (advancePc s.atFetch)

/-- R119, R207: the state after a step from `s` in which an IN found nothing to accept: an offer
made is gone, and `in_req` is set. -/
def waited (s : State) : State :=
  { s.atFetch with inReq := true, hostOffers := s.hostOffers.tail }

theorem hold_advancePc_atFetch {s : State} {rest : List Word} (h : s.hostOffers.tail = rest) :
    hold { advancePc s.atFetch with hostOffers := rest } = waited s := by
  subst h
  simp [hold, waited, advancePc, setPc]

/-- R119: the step from `s` to `t` was a wait at an IN. -/
structure Waits (s t : State) : Prop where
  pc : InByteRange s.pc
  op : s.fetched.op = 0x0E
  eq : t = waited s

/-- R119's list of what a step of the CORE can come to. -/
inductive CoreEnd (s t : State) : Prop where
  | retired (h : Retired s t)
  | halted (h : Halted s t)
  | faulted (h : FaultRaised s t)
  | waits (h : Waits s t)

theorem atIn_iff {s : State} : s.atIn = true ↔ InByteRange s.pc ∧ s.fetched.op = 0x0E := by
  rw [State.atIn, Bool.and_eq_true, beq_iff_eq, inByteRange_iff]

theorem atIn_eq_false_of_op {s : State} {op : BitVec 8} (h : s.fetched.op = op) (hop : op ≠ 0x0E) :
    s.atIn = false :=
  Bool.eq_false_iff.2 fun hin => hop (h.symm.trans (atIn_iff.1 hin).2)

/-- Every end of an execute phase, from the state after the fetch. -/
theorem Effect.coreEnd {i : Instr} {s t : State} (hp : InByteRange s.pc) (hr : s.state = .running)
    (hi : SpelledBy s.fetched i) (h : Effect i (advancePc s.atFetch) t) : CoreEnd s t := by
  by_cases hf : t.state = .faulted
  · exact .faulted (h.faultRaised hp (by simp [hr]) hi hf)
  cases h with
  | load | store | add | sub | mov | ldi | cmp | beqTaken | beqPast | call | out =>
    exact .retired ⟨hr, rfl, rfl, .inr ⟨atIn_eq_false_of_op hi.1 (by decide), rfl⟩⟩
  | jmp | ret => exact .retired ⟨hr, rfl, rfl, .inr ⟨atIn_eq_false_of_op hi (by decide), rfl⟩⟩
  | inpAccepts => exact .retired ⟨hr, rfl, rfl, .inl rfl⟩
  | halt => exact .halted ⟨hp, hi, rfl⟩
  | inpSilent ho =>
    have hrest : s.hostOffers.tail = s.hostOffers := by
      rw [show s.hostOffers = [] from ho, List.tail_nil]
    exact .waits ⟨hp, hi.1, hold_advancePc_atFetch hrest⟩
  | inpRejects ho =>
    exact .waits ⟨hp, hi.1, hold_advancePc_atFetch (congrArg List.tail ho)⟩
  | loadFault | storeFault | jmpFault | retFault | beqFault | int => exact absurd rfl hf

theorem coreEnd_of_coreStep {s t : State} (h : s.coreMoves = true) (ht : step s = .next t) :
    CoreEnd s t := by
  rcases coreStep_cases h ht with ⟨-, rfl⟩ | ⟨-, -, rfl⟩ | ⟨hp, i, -, hi, he⟩
  · exact .faulted (faultRaised_of_coreStep h ht rfl)
  · exact .faulted (faultRaised_of_coreStep h ht rfl)
  · exact he.coreEnd ((inByteRange_iff _).2 hp) (State.running_of_coreMoves h) hi

theorem FaultRaised.state {s t : State} (h : FaultRaised s t) : t.state = .faulted := by
  obtain ⟨c, -, rfl⟩ := h
  rfl

theorem FaultRaised.cause_ne_none {s t : State} (h : FaultRaised s t) : t.cause ≠ .none := by
  obtain ⟨c, hc, rfl⟩ := h
  rintro rfl
  exact hc

theorem state_of_coreStep {s t : State} (h : s.coreMoves = true) (ht : step s = .next t) :
    t.state = .running ∨ t.state = .halted ∨ t.state = .faulted := by
  have hr := State.running_of_coreMoves h
  cases coreEnd_of_coreStep h ht with
  | retired hend => exact .inl hend.state
  | halted hend => exact .inr (.inl (hend.eq ▸ rfl))
  | faulted hend => exact .inr (.inr hend.state)
  | waits hend => exact .inl (hend.eq ▸ hr)

/-- Under the invariant an `in_req` was the IN's that retires. -/
theorem Retired.inReq_eq_false {s t : State} (h : Retired s t) (hs : Inv s) : t.inReq = false := by
  rcases h.inReq with e | ⟨hin, e⟩
  · exact e
  · exact e.trans (Bool.eq_false_iff.2 fun hreq => Bool.eq_false_iff.1 hin (hs.inReq hreq).2)

/-! ### Why a run ended -/

/-- A run that has not ended has nothing to explain. -/
theorem endExplained_of_not_ended {t : State} (hh : t.state ≠ .halted) (hf : t.state ≠ .faulted) :
    EndExplained t :=
  ⟨fun h => absurd h hh, fun h => absurd h hf, fun h => absurd h hf, fun h => absurd h hf,
    fun h => absurd h hf, fun h => absurd h hf⟩

/-- The host's next turns have no part in an explanation. -/
theorem EndExplained.withTurns {s : State} (h : EndExplained s) (turns : List HostTurn) :
    EndExplained { s with hostTurns := turns } :=
  ⟨h.halted, h.caused, h.fetch, h.opcode, h.address, h.interrupt⟩

/-- R113: `t` differs from `s` by a fetch, and by no write to memory or `pc` after it. -/
structure AfterFetch (s t : State) : Prop where
  pc : t.pc = s.pc + 1
  mem : t.mem = s.mem

theorem AfterFetch.pc_sub_one {s t : State} (h : AfterFetch s t) : t.pc - 1 = s.pc := by
  rw [h.pc]
  exact BitVec.add_sub_cancel ..

theorem AfterFetch.lastFetched {s t : State} (h : AfterFetch s t) : t.lastFetched = s.fetched := by
  rw [State.lastFetched, h.pc_sub_one, h.mem]
  rfl

theorem afterFetch_faultEnd {c : Cause} (hc : c ≠ .pcOutOfRange) (s : State) :
    AfterFetch s (faultEnd c s) :=
  ⟨if_neg hc, rfl⟩

theorem Halted.endExplained {s t : State} (h : Halted s t) : EndExplained t := by
  obtain ⟨hp, hop, rfl⟩ := h
  have hf : AfterFetch s (haltRun (advancePc s.atFetch)) := ⟨rfl, rfl⟩
  refine ⟨fun _ => ?_, nofun, nofun, nofun, nofun, nofun⟩
  rw [hf.pc_sub_one, hf.lastFetched]
  exact ⟨hp, hop⟩

/-- R224: a fault leaves its condition to be read: the fault of the fetch in `pc`, any other in the
cell before `pc` and in the registers, which it leaves as they were. -/
theorem endExplained_faultEnd {s : State} {c : Cause} (hc : FaultCondition s c) :
    EndExplained (faultEnd c s) := by
  have hne : c ≠ .none := by rintro rfl; exact hc
  refine ⟨nofun, fun _ => hne, fun _ e => ?_, fun _ e => ?_, fun _ e => ?_, fun _ e => ?_⟩
  · obtain rfl : c = .pcOutOfRange := e
    exact hc
  · obtain rfl : c = .unknownOpcode := e
    have hf := afterFetch_faultEnd (c := .unknownOpcode) (by decide) s
    rw [hf.pc_sub_one, hf.lastFetched]
    exact hc
  · obtain rfl : c = .addressOutOfRange := e
    have hf := afterFetch_faultEnd (c := .addressOutOfRange) (by decide) s
    rw [hf.pc_sub_one, hf.lastFetched]
    obtain ⟨hp, hdata | ⟨hlast, hop⟩⟩ := hc
    · exact ⟨hp, .inl hdata⟩
    · exact ⟨hp, .inr ⟨congrArg (· + 1) hlast, hop⟩⟩
  · obtain rfl : c = .interruptSignal := e
    have hf := afterFetch_faultEnd (c := .interruptSignal) (by decide) s
    rw [hf.pc_sub_one, hf.lastFetched]
    exact hc

theorem CoreEnd.endExplained {s t : State} (hr : s.state = .running) (h : CoreEnd s t) :
    EndExplained t := by
  cases h with
  | retired h => exact endExplained_of_not_ended (by simp [h.state]) (by simp [h.state])
  | halted h => exact h.endExplained
  | faulted h =>
    obtain ⟨c, hc, rfl⟩ := h
    exact endExplained_faultEnd hc
  | waits h =>
    obtain ⟨-, -, rfl⟩ := h
    exact endExplained_of_not_ended (by simp [waited, hr]) (by simp [waited, hr])

/-! ### The claims -/

/-- Settles O14: `step_answers`, by the host's move and, on a quiet turn, by the CORE's fetch. -/
theorem everyStepAnswersANextState : Obligations.EveryStepAnswersANextState := by
  unfold Obligations.EveryStepAnswersANextState
  exact step_answers

/-- Settles O9: a step of the CORE is a cycle from `atFetch`. -/
theorem stepRunsTheDecodedInstruction : Obligations.StepRunsTheDecodedInstruction := by
  unfold Obligations.StepRunsTheDecodedInstruction
  exact fun s i h hp hd => step_of_decode_ok h hp hd

/-- Settles O13: the ends of `CoreEnd`, in which the invariant fixes the cause and `in_req` of a
step that retires. -/
theorem stepHasOneOfFourOutcomes : Obligations.StepHasOneOfFourOutcomes := by
  unfold Obligations.StepHasOneOfFourOutcomes
  intro s t hinv h ht
  have hr := State.running_of_coreMoves h
  cases coreEnd_of_coreStep h ht with
  | retired hend =>
    have hcause : s.cause = .none := hinv.cause.2 (by simp [hr])
    exact .inl ⟨hend.state, hend.icount, hend.cause.trans hcause, hend.inReq_eq_false hinv⟩
  | halted hend =>
    obtain ⟨hp, hop, rfl⟩ := hend
    exact .inr (.inl ⟨hp, hop, rfl⟩)
  | faulted hend =>
    have hne := hend.cause_ne_none
    obtain ⟨c, -, rfl⟩ := hend
    exact .inr (.inr (.inl ⟨c, hne, rfl⟩))
  | waits hend =>
    obtain ⟨hp, hop, rfl⟩ := hend
    exact .inr (.inr (.inr ⟨hp, hop, rfl, rfl⟩))

/-- Settles O37: a step of the CORE ends as `CoreEnd` lists, and one of the host's ends no run and
leaves an ended one as it is, but for reset. -/
theorem everyStepKeepsTheEndExplained : Obligations.EveryStepKeepsTheEndExplained := by
  unfold Obligations.EveryStepKeepsTheEndExplained
  intro s t hs ht
  by_cases h : s.coreMoves = true
  · exact (coreEnd_of_coreStep h ht).endExplained (State.running_of_coreMoves h)
  · rcases hostStep_cases (Bool.eq_false_iff.2 h) ht with
      ⟨-, rfl⟩ | ⟨hi, a, d, -, rfl⟩ | ⟨-, -, rfl⟩ | ⟨-, -, rfl⟩
    · exact endExplained_of_not_ended nofun nofun
    · exact endExplained_of_not_ended (by simp [hi]) (by simp [hi])
    · exact endExplained_of_not_ended nofun nofun
    · exact hs.withTurns _

end Sys2Proof.Machine

/-! SUPPORT and CLAIM. What a step of the CORE makes of memory (spec/20_memory.md, R180) and of the
ports (spec/44_system_io.md R207, R209, R210), and from these that every step keeps the invariant of
the machine. -/

namespace Sys2Proof.Machine

/-! ### Memory -/

/-- The memory at the end of an execute phase: untouched, or with the one write of STORE or CALL. -/
theorem Effect.mem_cases {i : Instr} {s t : State} (h : Effect i s t) :
    t.mem = s.mem ∨
    (∃ rs ra, i = .store rs ra ∧ inRange (readReg ra s) = true ∧
      t.mem = s.mem.writeAt (readReg ra s) (readReg rs s)) ∨
    (∃ rt, i = .call rt ∧ t.mem = s.mem.writeAt (s.pc - 1) s.pc) := by
  cases h with
  | load | loadFault | storeFault | add | sub | mov | ldi | cmp | jmp | jmpFault | ret | retFault
  | beqTaken | beqFault | beqPast | halt | int | out | inpSilent | inpRejects | inpAccepts =>
    exact .inl rfl
  | store ha => exact .inr (.inl ⟨_, _, rfl, ha, rfl⟩)
  | call => exact .inr (.inr ⟨_, rfl, rfl⟩)

/-- R60: a step of the CORE leaves the memory, or makes the one write of the STORE or CALL it
fetched. -/
theorem mem_of_coreStep {s t : State} (h : s.coreMoves = true) (ht : step s = .next t) :
    t.mem = s.mem ∨
    (InByteRange s.pc ∧ s.fetched.op = 0x01 ∧ InByteRange (readReg (regOf s.fetched.r2) s) ∧
      t.mem = s.mem.writeAt (readReg (regOf s.fetched.r2) s) (readReg (regOf s.fetched.r1) s)) ∨
    (InByteRange s.pc ∧ s.fetched.op = 0x07 ∧ t.mem = s.mem.writeAt s.pc (s.pc + 1)) := by
  rcases coreStep_cases h ht with ⟨-, rfl⟩ | ⟨-, -, rfl⟩ | ⟨hp, i, -, hi, he⟩
  · exact .inl rfl
  · exact .inl rfl
  · rw [← inByteRange_iff] at hp
    rcases he.mem_cases with hm | ⟨rs, ra, rfl, ha, hm⟩ | ⟨rt, rfl, hm⟩
    · exact .inl hm
    · obtain ⟨hop, rfl, rfl⟩ := hi
      exact .inr (.inl ⟨hp, hop, (inByteRange_iff _).2 ha, hm⟩)
    · have hsave : (advancePc s.atFetch).pc - 1 = s.pc := BitVec.add_sub_cancel ..
      rw [hsave] at hm
      exact .inr (.inr ⟨hp, hi.1, hm⟩)

theorem mem_wf_of_coreStep {s t : State} (hm : s.mem.wf = true) (h : s.coreMoves = true)
    (ht : step s = .next t) : t.mem.wf = true := by
  rcases mem_of_coreStep h ht with e | ⟨-, -, -, e⟩ | ⟨-, -, e⟩ <;> rw [e]
  · exact hm
  · exact Memory.writeAt_wf _ _ hm
  · exact Memory.writeAt_wf _ _ hm

/-- The only cell that a write can make read otherwise is the one written. -/
theorem Memory.eq_of_read_writeAt_ne {m : Memory} (hm : m.wf = true) {a v : Word} {n : Nat}
    (h : (m.writeAt a v).read n ≠ m.read n) : n = a.toNat ∧ (m.writeAt a v).read n = v := by
  rw [Memory.read_writeAt _ _ _ hm] at h ⊢
  split at h
  · next hn => exact ⟨hn.2, if_pos hn⟩
  · exact absurd rfl h

/-! ### The ports -/

/-- R207: `in_port` keeps its value or takes an acceptable one. -/
theorem Effect.inPort_cases {i : Instr} {s t : State} (h : Effect i s t) :
    t.inPort = s.inPort ∨ InByteRange t.inPort := by
  cases h with
  | load | loadFault | store | storeFault | add | sub | mov | ldi | cmp | jmp | jmpFault | ret
  | retFault | beqTaken | beqFault | beqPast | call | halt | int | out | inpSilent | inpRejects =>
    exact .inl rfl
  | inpAccepts _ hv => exact .inr ((inByteRange_iff_inputOk _).2 hv)

theorem inPort_of_coreStep {s t : State} (hs : InByteRange s.inPort) (h : s.coreMoves = true)
    (ht : step s = .next t) : InByteRange t.inPort := by
  rcases coreStep_cases h ht with ⟨-, rfl⟩ | ⟨-, -, rfl⟩ | ⟨-, i, -, -, he⟩
  · exact hs
  · exact hs
  · rcases he.inPort_cases with e | hv
    · rw [e]
      exact hs
    · exact hv

/-- R209: the step from `s` to `t` published `v`. -/
structure Published (v : Word) (s t : State) : Prop where
  outPort : t.outPort = v
  outputs : t.outputs = s.outputs ++ [v]
  outValid : t.outValid = true

/-- The step from `s` to `t` published nothing, and an earlier `out_valid` is over. -/
structure Unpublished (s t : State) : Prop where
  outPort : t.outPort = s.outPort
  outputs : t.outputs = s.outputs
  outValid : t.outValid = false

/-- Of the execute phases, OUT's alone publishes. -/
theorem Effect.unpublished {i : Instr} {s t : State} (h : Effect i (advancePc s.atFetch) t)
    (hi : ∀ rs, i ≠ .out rs) : Unpublished s t := by
  cases h with
  | load | loadFault | store | storeFault | add | sub | mov | ldi | cmp | jmp | jmpFault | ret
  | retFault | beqTaken | beqFault | beqPast | call | halt | int | inpSilent | inpRejects
  | inpAccepts => exact ⟨rfl, rfl, rfl⟩
  | out => exact absurd rfl (hi _)

section Publish

variable {s t : State} (h : s.coreMoves = true) (ht : step s = .next t)
include h ht

theorem published_of_coreStep (hp : InByteRange s.pc) (hop : s.fetched.op = 0x0D) :
    Published (readReg (regOf s.fetched.r1) s) s t ∧ t.state = .running := by
  have hr := State.running_of_coreMoves h
  have hd := decodeFields_of_spelledBy (i := .out _) ⟨hop, rfl⟩
  cases ht.symm.trans ((step_of_decode_ok h hp hd).trans (exec_of_effect .out))
  exact ⟨⟨rfl, rfl, rfl⟩, hr⟩

theorem unpublished_of_coreStep (hout : ¬ (InByteRange s.pc ∧ s.fetched.op = 0x0D)) :
    Unpublished s t := by
  rcases coreStep_cases h ht with ⟨-, rfl⟩ | ⟨-, -, rfl⟩ | ⟨hp, i, -, hi, he⟩
  · exact ⟨rfl, rfl, rfl⟩
  · exact ⟨rfl, rfl, rfl⟩
  · refine he.unpublished fun rs hrs => hout ⟨(inByteRange_iff _).2 hp, ?_⟩
    subst hrs
    exact hi.1

end Publish

theorem outSignal_of_not_outValid {s : State} (h : s.outValid = false) : outSignal s = none := by
  simp [outSignal, h]

/-! ### The invariant -/

/-- What the host will do has no part in the invariant. -/
theorem Inv.withHost {s : State} (h : Inv s) (offers : List Word) (turns : List HostTurn) :
    Inv { s with hostOffers := offers, hostTurns := turns } :=
  ⟨h.memory, h.cause, h.inPort, h.outPort, h.inReq, h.outValid, h.idle⟩

theorem inv_reset : Inv State.reset :=
  ⟨rfl, by decide, by decide, rfl, nofun, nofun, fun _ => ⟨rfl, rfl, rfl, rfl, rfl⟩⟩

section Idle

variable {s : State} (hs : Inv s) (hi : s.state = .idle)
include hs hi

theorem Inv.inReq_of_idle : s.inReq ≠ true := fun h => by
  have := (hs.inReq h).1
  simp [hi] at this

theorem Inv.outValid_of_idle : s.outValid ≠ true := fun h => by
  have := (hs.outValid h).1
  simp [hi] at this

/-- R255: a load write in IDLE changes memory alone, and keeps its form. -/
theorem Inv.loaded (a d : Word) : Inv (writeCell a d s) :=
  ⟨Memory.writeAt_wf a d hs.memory, hs.cause, hs.inPort, hs.outPort,
    fun h => absurd h (hs.inReq_of_idle hi), hs.outValid, hs.idle⟩

/-- R256: in IDLE there is no cause and no handshake that a start could carry over. -/
theorem Inv.started : Inv { s with state := .running } :=
  ⟨hs.memory, ⟨nofun, fun _ => hs.cause.2 (by simp [hi])⟩, hs.inPort, hs.outPort,
    fun h => absurd h (hs.inReq_of_idle hi), fun h => absurd h (hs.outValid_of_idle hi), nofun⟩

end Idle

/-- R220: no cause has a condition that an IN meets. -/
theorem atIn_eq_false_of_faultCondition {s : State} {c : Cause} (h : FaultCondition s c) :
    s.atIn = false := by
  refine Bool.eq_false_iff.2 fun hin => ?_
  obtain ⟨hp, hop⟩ := atIn_iff.1 hin
  cases c with
  | none => exact h
  | pcOutOfRange => exact h hp
  | unknownOpcode => exact absurd (hop ▸ h.2) (by decide : ¬ Undefined 0x0E)
  | addressOutOfRange => simp [FaultCondition, DataAddressOutside, InlineWordOutside, hop] at h
  | interruptSignal => simp [FaultCondition, hop] at h

/-- R31: a step that starts with no cause ends with one exactly where it faults. -/
theorem cause_iff_of_coreStep {s t : State} (hc : s.cause = .none) (h : s.coreMoves = true)
    (ht : step s = .next t) : t.cause = .none ↔ t.state ≠ .faulted := by
  have hr := State.running_of_coreMoves h
  cases coreEnd_of_coreStep h ht with
  | retired hend => simp [hend.state, hend.cause, hc]
  | halted hend => simp [hend.eq, hc]
  | faulted hend => simp [hend.state, hend.cause_ne_none]
  | waits hend => simp [hend.eq, waited, hc, hr]

section CoreStep

variable {s t : State} (hs : Inv s) (h : s.coreMoves = true) (ht : step s = .next t)
include hs h ht

/-- Under the invariant `in_req` is set by the wait that the step comes to, and carried over by
nothing else: a set one says that the CORE is at an IN, which neither halts nor faults. -/
theorem inReq_of_coreStep (hreq : t.inReq = true) : t.state = .running ∧ t.atIn = true := by
  cases coreEnd_of_coreStep h ht with
  | retired hend => exact absurd hreq (by simp [hend.inReq_eq_false hs])
  | halted hend =>
    obtain ⟨-, hop, rfl⟩ := hend
    have hin : s.atIn = true := (hs.inReq hreq).2
    exact absurd hin (by simp [atIn_eq_false_of_op hop])
  | faulted hend =>
    obtain ⟨c, hc, rfl⟩ := hend
    have hin : s.atIn = true := (hs.inReq hreq).2
    exact absurd hin (by simp [atIn_eq_false_of_faultCondition hc])
  | waits hend =>
    obtain ⟨hp, hop, rfl⟩ := hend
    have hr := State.running_of_coreMoves (s := s) h
    exact ⟨hr, (atIn_iff (s := s)).2 ⟨hp, hop⟩⟩

theorem outPort_of_coreStep : t.outPort = t.outputs.getLastD 0 := by
  by_cases hout : InByteRange s.pc ∧ s.fetched.op = 0x0D
  · obtain ⟨hpub, -⟩ := published_of_coreStep h ht hout.1 hout.2
    rw [hpub.outPort, hpub.outputs]
    simp
  · have hun := unpublished_of_coreStep h ht hout
    rw [hun.outPort, hun.outputs]
    exact hs.outPort

end CoreStep

theorem outValid_of_coreStep {s t : State} (h : s.coreMoves = true) (ht : step s = .next t)
    (hv : t.outValid = true) : t.state = .running ∧ t.outputs ≠ [] := by
  by_cases hout : InByteRange s.pc ∧ s.fetched.op = 0x0D
  · obtain ⟨hpub, hrun⟩ := published_of_coreStep h ht hout.1 hout.2
    exact ⟨hrun, by simp [hpub.outputs]⟩
  · exact absurd hv (by simp [(unpublished_of_coreStep h ht hout).outValid])

theorem state_ne_idle_of_coreStep {s t : State} (h : s.coreMoves = true) (ht : step s = .next t) :
    t.state ≠ .idle := by
  rcases state_of_coreStep h ht with e | e | e <;> simp [e]

theorem inv_of_coreStep {s t : State} (hs : Inv s) (h : s.coreMoves = true)
    (ht : step s = .next t) : Inv t where
  memory := mem_wf_of_coreStep hs.memory h ht
  cause := cause_iff_of_coreStep (hs.cause.2 (by simp [State.running_of_coreMoves h])) h ht
  inPort := inPort_of_coreStep hs.inPort h ht
  outPort := outPort_of_coreStep hs h ht
  inReq := inReq_of_coreStep hs h ht
  outValid := outValid_of_coreStep h ht
  idle hi := absurd hi (state_ne_idle_of_coreStep h ht)

theorem inv_of_hostStep {s t : State} (hs : Inv s) (h : s.coreMoves = false)
    (ht : step s = .next t) : Inv t := by
  rcases hostStep_cases h ht with ⟨-, rfl⟩ | ⟨hi, a, d, -, rfl⟩ | ⟨hi, -, rfl⟩ | ⟨-, -, rfl⟩
  · exact inv_reset.withHost _ _
  · exact (hs.loaded hi a d).withHost _ _
  · exact (hs.started hi).withHost _ _
  · exact hs.withHost _ _

/-! ### The claims -/

/-- Settles O32: the one write of a step is STORE's or CALL's, and changes the cell it names. -/
theorem onlyStoreAndCallChangeOneCell : Obligations.OnlyStoreAndCallChangeOneCell := by
  unfold Obligations.OnlyStoreAndCallChangeOneCell
  intro s t hs h ht n hn
  rcases mem_of_coreStep h ht with e | ⟨hp, hop, ha, e⟩ | ⟨hp, hop, e⟩
  · exact absurd (by rw [e]) hn
  · rw [e] at hn ⊢
    obtain ⟨hcell, hval⟩ := Memory.eq_of_read_writeAt_ne hs.memory hn
    exact ⟨hp, .inl ⟨hop, ha, hcell, hval⟩⟩
  · rw [e] at hn ⊢
    obtain ⟨hcell, hval⟩ := Memory.eq_of_read_writeAt_ne hs.memory hn
    exact ⟨hp, .inr ⟨hop, hcell, hval⟩⟩

/-- Settles O39: OUT publishes its register, and no other end of a step publishes. -/
theorem outputsAreThePublishedValues : Obligations.OutputsAreThePublishedValues := by
  unfold Obligations.OutputsAreThePublishedValues
  intro s t h ht
  split
  · next hout =>
    obtain ⟨hpub, -⟩ := published_of_coreStep h ht hout.1 hout.2
    exact ⟨hpub.outputs, (outSignal_of_outValid hpub.outValid).trans (congrArg some hpub.outPort)⟩
  · next hout =>
    have hun := unpublished_of_coreStep h ht hout
    exact ⟨hun.outputs, hun.outPort, outSignal_of_not_outValid hun.outValid⟩

/-- Settles O36: clause by clause for a step of the CORE, move by move for one of the host's. -/
theorem everyStepKeepsTheInvariant : Obligations.EveryStepKeepsTheInvariant := by
  unfold Obligations.EveryStepKeepsTheInvariant
  intro s t hs ht
  cases h : s.coreMoves with
  | true => exact inv_of_coreStep hs h ht
  | false => exact inv_of_hostStep hs h ht

/-- Settles O38: the reset state has no cell, no output and no handshake, and no run has ended in
it. -/
theorem resetMeetsTheInvariants : Obligations.ResetMeetsTheInvariants := by
  unfold Obligations.ResetMeetsTheInvariants
  exact ⟨inv_reset, endExplained_of_not_ended nofun nofun⟩

end Sys2Proof.Machine

/-! SUPPORT and CLAIM. IN and the offers of the host (spec/44_system_io.md R207, R208; log entry 2),
with CALL (R180) and HALT (R200). -/

namespace Sys2Proof.Machine

/-! ### Offers and the steps that take none -/

/-- The state with another list of offers to come. -/
def withOffers (offers : List Word) (s : State) : State := { s with hostOffers := offers }

/-- An execute phase that is not IN's takes no offer, and ends the same whatever the offers. -/
theorem Effect.withOffers {i : Instr} {s t : State} (h : Effect i s t) (hi : ∀ rd, i ≠ .inp rd)
    (offers : List Word) :
    t.hostOffers = s.hostOffers ∧ Effect i (withOffers offers s) (withOffers offers t) := by
  cases h with
  | load h => exact ⟨rfl, .load h⟩
  | loadFault h => exact ⟨rfl, .loadFault h⟩
  | store h => exact ⟨rfl, .store h⟩
  | storeFault h => exact ⟨rfl, .storeFault h⟩
  | add => exact ⟨rfl, .add⟩
  | sub => exact ⟨rfl, .sub⟩
  | mov => exact ⟨rfl, .mov⟩
  | ldi => exact ⟨rfl, .ldi⟩
  | cmp => exact ⟨rfl, .cmp⟩
  | jmp h => exact ⟨rfl, .jmp h⟩
  | jmpFault h => exact ⟨rfl, .jmpFault h⟩
  | ret h => exact ⟨rfl, .ret h⟩
  | retFault h => exact ⟨rfl, .retFault h⟩
  | beqTaken hk h => exact ⟨rfl, .beqTaken hk h⟩
  | beqFault hk h => exact ⟨rfl, .beqFault hk h⟩
  | beqPast hk => exact ⟨rfl, .beqPast hk⟩
  | call => exact ⟨rfl, .call⟩
  | halt => exact ⟨rfl, .halt⟩
  | int => exact ⟨rfl, .int⟩
  | out => exact ⟨rfl, .out⟩
  | inpSilent | inpRejects | inpAccepts => exact absurd rfl (hi _)

/-- The step from `s` leaves the offers, and is the same whatever they are. -/
def TakesNoOffer (s : State) : Prop :=
  ∀ offers, ∃ t, step s = .next t ∧ t.hostOffers = s.hostOffers ∧
    step (withOffers offers s) = .next (withOffers offers t)

theorem takesNoOffer_of_coreStep {s : State} (h : s.coreMoves = true) (hin : s.atIn = false) :
    TakesNoOffer s := by
  intro offers
  have h' : (withOffers offers s).coreMoves = true := h
  by_cases hp : InByteRange s.pc
  · cases hd : decodeFields s.fetched with
    | ok i =>
      have hi (rd : Reg) : i ≠ .inp rd := by
        rintro rfl
        obtain ⟨hop, -⟩ := spelledBy_of_decode hd
        exact Bool.eq_false_iff.1 hin (atIn_iff.2 ⟨hp, hop⟩)
      obtain ⟨t, ht, he⟩ := exec_effect i (advancePc s.atFetch)
      obtain ⟨hkept, he'⟩ := he.withOffers hi offers
      exact ⟨t, (step_of_decode_ok h hp hd).trans ht, hkept,
        (step_of_decode_ok h' hp hd).trans (exec_of_effect he')⟩
    | error e =>
      exact ⟨_, step_of_decode_error h hp hd, rfl, step_of_decode_error h' hp hd⟩
  · exact ⟨_, step_of_fetch_outside h hp, rfl, step_of_fetch_outside h' hp⟩

theorem hostLoad_withOffers (a d : Word) (offers : List Word) (s : State) :
    hostLoad a d (withOffers offers s) = withOffers offers (hostLoad a d s) := by
  by_cases hi : s.state = .idle
  · rw [hostLoad_idle hi, hostLoad_idle (s := withOffers offers s) hi]
    rfl
  · rw [hostLoad_ignored hi, hostLoad_ignored (s := withOffers offers s) hi]

theorem hostLoad_hostOffers (a d : Word) (s : State) :
    (hostLoad a d s).hostOffers = s.hostOffers := by
  by_cases hi : s.state = .idle
  · rw [hostLoad_idle hi, writeCell_hostOffers]
  · rw [hostLoad_ignored hi]

theorem hostStart_withOffers (offers : List Word) (s : State) :
    hostStart (withOffers offers s) = withOffers offers (hostStart s) := by
  by_cases hi : s.state = .idle
  · rw [hostStart_idle hi, hostStart_idle (s := withOffers offers s) hi]
    rfl
  · rw [hostStart_ignored hi, hostStart_ignored (s := withOffers offers s) hi]

theorem hostStart_hostOffers (s : State) : (hostStart s).hostOffers = s.hostOffers := by
  by_cases hi : s.state = .idle
  · rw [hostStart_idle hi]
  · rw [hostStart_ignored hi]

/-- No move of the host's takes an offer, and no turn that passes does. -/
theorem takesNoOffer_of_not_coreMoves {s : State} (h : s.coreMoves = false) : TakesNoOffer s := by
  intro offers
  have same (m : HostTurn) (hm : s.hostMove = m) : (withOffers offers s).hostMove = m := hm
  cases hm : s.hostMove with
  | reset => exact ⟨_, step_of_reset hm, rfl, step_of_reset (same _ hm)⟩
  | load a d =>
    refine ⟨_, step_of_load hm, hostLoad_hostOffers .., ?_⟩
    rw [step_of_load (same _ hm), ← hostLoad_withOffers]
    rfl
  | start =>
    refine ⟨_, step_of_start hm, hostStart_hostOffers .., ?_⟩
    rw [step_of_start (same _ hm), ← hostStart_withOffers]
    rfl
  | quiet =>
    have hr : s.state ≠ .running := fun hr => by simp [coreMoves_of_quiet hm hr] at h
    exact ⟨_, step_of_quiet_not_running hm hr, rfl, step_of_quiet_not_running (same _ hm) hr⟩

/-! ### A CORE at an IN under a quiet host -/

/-- The CORE is RUNNING at an IN, and the host drives nothing but offers. -/
structure AtQuietIn (s : State) : Prop where
  running : s.state = .running
  turns : s.hostTurns = []
  pc : InByteRange s.pc
  op : s.fetched.op = 0x0E

/-- No offer to come is acceptable. -/
abbrev Unacceptable (offers : List Word) : Prop := ∀ b ∈ offers, ¬ InByteRange b

theorem Unacceptable.head {offers : List Word} (h : Unacceptable offers) :
    ∀ b ∈ offers.head?, ¬ InByteRange b :=
  fun b hmem => h b (List.mem_of_mem_head? hmem)

theorem AtQuietIn.step_eq {s : State} (h : AtQuietIn s) :
    step s = exec (.inp (regOf s.fetched.r1)) (advancePc s.atFetch) :=
  step_at_in h.running h.turns ((inByteRange_iff _).1 h.pc) h.op

/-- R119: a wait leaves the CORE at the same IN. -/
theorem AtQuietIn.after_wait {s : State} (h : AtQuietIn s) : AtQuietIn (waited s) :=
  ⟨h.running, congrArg List.tail h.turns, h.pc, h.op⟩

/-- R119: nothing of a wait can be observed. -/
theorem observe_waited (s : State) : observe (waited s) = observe s := rfl

/-- R207: with no offer, or an unacceptable one, the IN waits. -/
theorem AtQuietIn.step_waits {s : State} (h : AtQuietIn s)
    (hb : ∀ b ∈ s.hostOffers.head?, ¬ InByteRange b) : step s = .next (waited s) := by
  rw [h.step_eq]
  cases ho : s.hostOffers with
  | nil =>
    have hrest : s.hostOffers.tail = s.hostOffers := by rw [ho, List.tail_nil]
    rw [exec_of_effect (s := advancePc s.atFetch) (.inpSilent ho)]
    exact congrArg _ (hold_advancePc_atFetch hrest)
  | cons b rest =>
    have hbad : inputOk b = false := (not_inByteRange_iff_inputOk _).1 (hb b (by simp [ho]))
    rw [exec_of_effect (s := advancePc s.atFetch) (.inpRejects ho hbad)]
    exact congrArg _ (hold_advancePc_atFetch (congrArg List.tail ho))

/-- R207: the state after an IN took `v`, the first of its offers. -/
def taken (v : Word) (s : State) : State :=
  retire (writeReg (regOf s.fetched.r1) v
    { advancePc s.atFetch with hostOffers := s.hostOffers.tail, inReq := false, inPort := v })

theorem observe_taken (v : Word) (s : State) :
    observe (taken v s) =
      { observe s with
        pc := s.pc + 1
        icount := s.icount + 1
        regs := s.regs.set (regOf s.fetched.r1) v
        inPort := v } := rfl

/-- R119: what an IN takes after a wait leaves as taking it at once would. -/
theorem observe_taken_waited (v : Word) (s : State) :
    observe (taken v (waited s)) = observe (taken v s) := by
  rw [observe_taken, observe_taken, observe_waited]
  rfl

theorem AtQuietIn.step_takes {s : State} (h : AtQuietIn s) {v : Word} {rest : List Word}
    (ho : s.hostOffers = v :: rest) (hv : InByteRange v) : step s = .next (taken v s) := by
  have hok := (inByteRange_iff_inputOk v).1 hv
  rw [h.step_eq, exec_of_effect (s := advancePc s.atFetch) (.inpAccepts ho hok), taken, ho]
  rfl

/-- However many steps, a host that offers nothing acceptable changes nothing that can be
observed. -/
theorem AtQuietIn.run_waits {s : State} (h : AtQuietIn s) (hb : Unacceptable s.hostOffers)
    (k : Nat) : ∃ t, runSteps (k + 1) s = .next t ∧ observe t = observe s ∧ t.inReq = true := by
  induction k generalizing s with
  | zero => exact ⟨waited s, runSteps_succ (h.step_waits hb.head), observe_waited s, rfl⟩
  | succ k ih =>
    rw [runSteps_succ (h.step_waits hb.head)]
    exact ih h.after_wait fun b hmem => hb b (List.mem_of_mem_tail hmem)

/-- The rejected offers go one by one, and the run then takes `v` as it would have at once. -/
theorem AtQuietIn.run_takes {s : State} (h : AtQuietIn s) {bad : List Word} {v : Word}
    {rest : List Word} (ho : s.hostOffers = bad ++ v :: rest) (hb : Unacceptable bad)
    (hv : InByteRange v) :
    ∃ t, runSteps (bad.length + 1) s = .next t ∧ observe t = observe (taken v s) ∧
      t.inReq = false ∧ t.hostOffers = rest := by
  induction bad generalizing s with
  | nil =>
    refine ⟨taken v s, runSteps_succ (h.step_takes ho hv), rfl, rfl, ?_⟩
    exact congrArg List.tail ho
  | cons b bad ih =>
    have hstep := h.step_waits (by simpa [ho] using hb b List.mem_cons_self)
    rw [List.length_cons, runSteps_succ hstep]
    have ho' : (waited s).hostOffers = bad ++ v :: rest := congrArg List.tail ho
    obtain ⟨t, ht, hobs, hend⟩ :=
      ih h.after_wait ho' fun c hc => hb c (List.mem_cons_of_mem b hc)
    exact ⟨t, ht, hobs.trans (observe_taken_waited v s), hend⟩

/-! ### CALL where it has no cell -/

/-- R61: a write finds no cell out of range (log entry 11). -/
theorem Memory.writeAt_outside {a : Word} (h : inRange a = false) (m : Memory) (v : Word) :
    m.writeAt a v = m := by
  simp [Memory.writeAt, h]

/-! ### The claims -/

/-- Settles O40: IN is the one instruction whose execute phase reads the offers, and no move of the
host's does. -/
theorem offersMatterToInAlone : Obligations.OffersMatterToInAlone := by
  unfold Obligations.OffersMatterToInAlone
  intro s offers hin
  cases h : s.coreMoves with
  | true => exact takesNoOffer_of_coreStep h hin offers
  | false => exact takesNoOffer_of_not_coreMoves h offers

/-- Settles O48: by induction on the rejected offers. -/
theorem inRejectsThenTakes : Obligations.InRejectsThenTakes := by
  unfold Obligations.InRejectsThenTakes
  intro s bad v rest hr ht hp hop ho hb hv
  exact AtQuietIn.run_takes ⟨hr, ht, hp, hop⟩ ho hb hv

/-- Settles O49: by induction on the steps. -/
theorem unansweredInWaitsForever : Obligations.UnansweredInWaitsForever := by
  unfold Obligations.UnansweredInWaitsForever
  intro s k hr ht hp hop hb
  exact AtQuietIn.run_waits ⟨hr, ht, hp, hop⟩ hb k

/-- Settles O28: the opcode and `r1` spell IN, and the first offer chooses among its three ends. -/
theorem inTakesAnAcceptableOffer : Obligations.InTakesAnAcceptableOffer := by
  unfold Obligations.InTakesAnAcceptableOffer
  refine ⟨fun w h => decode_of_spelledBy ⟨h, rfl⟩, fun _ => rfl, fun rd s =>
    ⟨fun v rest ho hv => ?_, fun v rest ho hv => ?_, fun ho => ?_⟩⟩
  · exact exec_of_effect (.inpAccepts ho ((inByteRange_iff_inputOk v).1 hv))
  · exact exec_of_effect (.inpRejects ho ((not_inByteRange_iff_inputOk v).1 hv))
  · exact exec_of_effect (.inpSilent ho)

/-- Settles O26: the opcode alone spells HALT, whose only end is `Effect.halt`. -/
theorem haltSentinelIsTheOpcode : Obligations.HaltSentinelIsTheOpcode := by
  unfold Obligations.HaltSentinelIsTheOpcode
  exact ⟨fun w h => decode_of_spelledBy h, rfl, fun s => exec_of_effect .halt⟩

/-- Settles O25: the opcode and `r1` spell CALL, whose only end writes the cell before `pc`, where
there is one, and goes to the register's value. -/
theorem callSavesAndGoesToTheRegister : Obligations.CallSavesAndGoesToTheRegister := by
  unfold Obligations.CallSavesAndGoesToTheRegister
  refine ⟨fun w h => decode_of_spelledBy ⟨h, rfl⟩, fun _ => rfl, fun rt s hm => ⟨fun hp => ?_, ?_⟩⟩
  · have ha := (inByteRange_iff _).1 hp
    exact ⟨_, exec_of_effect .call, Memory.read_writeAt_same hm ha _,
      fun n hn => Memory.read_writeAt_other hm _ hn, rfl⟩
  · refine ⟨_, exec_of_effect .call, rfl, fun hp => ?_⟩
    exact Memory.writeAt_outside ((not_inByteRange_iff _).1 hp) ..

end Sys2Proof.Machine

/-! SUPPORT and CLAIM. The host's moves and reads (spec/70_reset_and_hazards.md R250 to R258), and
what a run keeps once it is over (R225, R253). -/

namespace Sys2Proof.Machine

/-! ### What the host reads -/

theorem RunState.code_inj {a b : RunState} : a.code = b.code ↔ a = b := by
  cases a <;> cases b <;> decide

theorem Cause.code_inj {a b : Cause} : a.code = b.code ↔ a = b := by
  cases a <;> cases b <;> decide

theorem Cause.code_le (c : Cause) : c.code.toNat ≤ 4 := by
  cases c <;> decide

theorem hostRead_running {s : State} (h : s.state = .running) : hostRead s = none := by
  simp [hostRead, h]

theorem hostRead_not_running {s : State} (h : s.state ≠ .running) :
    hostRead s = some ⟨s.pc, s.regs, s.mem, s.inPort, s.outPort⟩ := by
  unfold hostRead
  split
  · next hr => exact absurd hr h
  all_goals rfl

/-! ### What can be observed of a host's move -/

/-- R255: a load write in IDLE writes one cell, if its address names one. -/
theorem hostLoad_read {s : State} (hi : s.state = .idle) (hm : s.mem.wf = true) (a d : Word)
    (n : Nat) :
    (hostLoad a d s).mem.read n = if InByteRange a ∧ n = a.toNat then d else s.mem.read n := by
  rw [hostLoad_idle hi, writeCell_mem, Memory.read_writeAt _ _ _ hm]
  simp only [inByteRange_iff]

theorem hostLoad_state (a d : Word) (s : State) : (hostLoad a d s).state = s.state := by
  by_cases hi : s.state = .idle
  · rw [hostLoad_idle hi, writeCell_state]
  · rw [hostLoad_ignored hi]

theorem observe_hostLoad_idle {s : State} (hi : s.state = .idle) (a d : Word) :
    observe (hostLoad a d s) = { observe s with mem := (hostLoad a d s).mem } := by
  rw [hostLoad_idle hi]
  rfl

theorem observe_hostStart (s : State) :
    observe (hostStart s) =
      if s.state = .idle then { observe s with state := .running } else observe s := by
  split
  · next hi =>
    rw [hostStart_idle hi]
    rfl
  · next hi => rw [hostStart_ignored hi]

/-! ### The CORE's moves of `halt_fsm` -/

section CoreMove

variable {s t : State} (h : s.coreMoves = true) (ht : step s = .next t)
include h ht

/-- R114: the halt check alone leads to HALTED, and always does. -/
theorem halted_iff_of_coreStep : t.state = .halted ↔ InByteRange s.pc ∧ s.fetched.op = 0x0F := by
  have hr := State.running_of_coreMoves h
  constructor
  · intro hh
    cases coreEnd_of_coreStep h ht with
    | retired hend => exact absurd (hend.state.symm.trans hh) nofun
    | halted hend =>
      obtain ⟨hp, hop, -⟩ := hend
      exact ⟨hp, hop⟩
    | faulted hend => exact absurd (hend.state.symm.trans hh) nofun
    | waits hend =>
      obtain ⟨-, -, rfl⟩ := hend
      exact absurd (hr.symm.trans hh) nofun
  · rintro ⟨hp, hop⟩
    have hd := decodeFields_of_spelledBy (i := .halt) hop
    cases ht.symm.trans ((step_of_decode_ok h hp hd).trans (exec_of_effect .halt))
    rfl

end CoreMove

/-! ### A run that is over -/

theorem coreMoves_of_ended {s : State} (h : s.ended = true) : s.coreMoves = false := by
  have hr : s.state ≠ .running := fun hr => by simp [State.ended, hr] at h
  simp [State.coreMoves, hr]

theorem hostMove_mem {s : State} (h : s.hostMove ≠ .quiet) : s.hostMove ∈ s.hostTurns := by
  unfold State.hostMove at h ⊢
  cases ht : s.hostTurns with
  | nil => exact absurd (by rw [ht, List.headD_nil]) h
  | cons m rest => exact List.mem_cons_self

/-- R225, R253: a step of a stopped CORE spends the host's turn and does nothing else, unless the
turn is a reset. -/
theorem step_of_ended {s : State} (h : s.ended = true) (hm : .reset ∉ s.hostTurns) :
    step s = .next (spendTurn s) := by
  obtain ⟨t, ht⟩ := step_answers s
  have hi : s.state ≠ .idle := fun hi => by simp [State.ended, hi] at h
  rcases hostStep_cases (coreMoves_of_ended h) ht with
    ⟨hreset, -⟩ | ⟨hidle, -⟩ | ⟨hidle, -⟩ | ⟨-, -, rfl⟩
  · have hmem : s.hostMove ∈ s.hostTurns := hostMove_mem (by simp [hreset])
    exact absurd (hreset ▸ hmem) hm
  · exact absurd hidle hi
  · exact absurd hidle hi
  · exact ht

/-! ### The claims -/

/-- Settles O42: a reset is `hostReset`, of which the host's lists are the only part that depends on
the state. -/
theorem resetPutsEveryValueBack : Obligations.ResetPutsEveryValueBack := by
  unfold Obligations.ResetPutsEveryValueBack
  exact ⟨fun s hm => step_of_reset hm, rfl, fun _ => rfl, rfl, rfl, rfl, rfl, rfl, rfl, rfl, rfl,
    rfl⟩

/-- Settles O43: the host's moves one by one, and for the CORE the ends of its step. -/
theorem haltFsmMovesAsTabled : Obligations.HaltFsmMovesAsTabled := by
  unfold Obligations.HaltFsmMovesAsTabled
  intro s t ht
  refine ⟨fun hm => ?_, fun a d hm => ?_, fun hm => ?_, fun hm hr => ?_, fun hm hr => ?_⟩
  · cases ht.symm.trans (step_of_reset hm)
    rfl
  · cases ht.symm.trans (step_of_load hm)
    refine ⟨hostLoad_state .., fun hi => ?_, fun hi => ⟨?_, fun hwf n => ?_⟩⟩
    · rw [hostLoad_ignored (s := spendTurn s) hi]
      rfl
    · exact observe_hostLoad_idle (s := spendTurn s) hi a d
    · exact hostLoad_read (s := spendTurn s) hi hwf a d n
  · cases ht.symm.trans (step_of_start hm)
    exact observe_hostStart _
  · have h := coreMoves_of_quiet hm hr
    exact ⟨state_of_coreStep h ht, halted_iff_of_coreStep h ht,
      fun hc => iff_not_comm.1 (cause_iff_of_coreStep hc h ht)⟩
  · cases ht.symm.trans (step_of_quiet_not_running hm hr)
    rfl

/-- Settles O45: a start is `hostStart`, and in IDLE the invariant has `pc` at 0. -/
theorem startSetsRunningOnly : Obligations.StartSetsRunningOnly := by
  unfold Obligations.StartSetsRunningOnly
  intro s hm hi
  have ht := step_of_start hm
  rw [hostStart_idle (s := spendTurn s) hi] at ht
  refine ⟨_, ht, rfl, fun hs => ?_⟩
  obtain ⟨hpc, -⟩ := hs.idle hi
  refine ⟨hpc, fun hq => ?_⟩
  have hp : InByteRange s.pc := by rw [hpc]; decide
  rw [step_eq_executeWord (coreMoves_of_quiet hq rfl) hp]
  simp only [advancePc, setPc, State.atFetch, spendTurn, hpc]
  rfl

/-- Settles O46: the codes are different numbers, and RUNNING alone hides the end state. -/
theorem hostReadsTheEndStateWhenNotRunning : Obligations.HostReadsTheEndStateWhenNotRunning := by
  unfold Obligations.HostReadsTheEndStateWhenNotRunning
  intro s
  have state (b : RunState) : (statusOf s).state = b.code ↔ s.state = b := RunState.code_inj
  have cause (b : Cause) : (statusOf s).cause = b.code ↔ s.cause = b := Cause.code_inj
  refine ⟨⟨fun hnone => ?_, hostRead_running⟩, hostRead_not_running, rfl, state .idle,
    state .running, state .halted, state .faulted, cause .none, cause .pcOutOfRange,
    cause .unknownOpcode, cause .addressOutOfRange, cause .interruptSignal, s.cause.code_le⟩
  by_contra hr
  exact absurd ((hostRead_not_running hr).symm.trans hnone) nofun

/-- Settles O50: by induction on the steps, each of which spends one of the host's turns. -/
theorem stoppedCoreStaysStopped : Obligations.StoppedCoreStaysStopped := by
  unfold Obligations.StoppedCoreStaysStopped
  intro s k h hm
  induction k generalizing s with
  | zero => exact ⟨s, runSteps_zero s, rfl, rfl⟩
  | succ k ih =>
    rw [runSteps_succ (step_of_ended h hm)]
    exact ih (spendTurn s) h fun hmem => hm (List.mem_of_mem_tail hmem)

end Sys2Proof.Machine

/-! SUPPORT and CLAIM. Memory as an array of cells: a canonical memory is what it reads as
(spec/10_state.md section 6), and the next fetch sees what a step has written (spec/20_memory.md
section 6, R72). -/

namespace Sys2Proof.Machine

/-! ### A canonical memory is its cells -/

theorem Memory.read_head (c : Nat × Word) (m : Memory) : Memory.read (c :: m) c.1 = c.2 := by
  rw [Memory.read_cons, if_pos rfl]

theorem Memory.read_tail {c : Nat × Word} {n : Nat} (h : n ≠ c.1) (m : Memory) :
    Memory.read (c :: m) n = Memory.read m n := by
  rw [Memory.read_cons, if_neg h]

/-- A canonical memory that reads 0 everywhere lists no cell: its first would not read 0. -/
theorem Memory.eq_nil_of_read {m : Memory} {lo : Nat} (hm : Memory.wfFrom lo m = true)
    (h : ∀ n, m.read n = 0#32) : m = [] := by
  cases m with
  | nil => rfl
  | cons c m =>
    obtain ⟨-, -, hc, -⟩ := (Memory.wfFrom_cons _ _ _).1 hm
    exact absurd ((Memory.read_head c m).symm.trans (h c.1)) hc

/-- The first cell that one of two memories lists is not before the other's, when they read
alike. -/
theorem Memory.fst_le_of_read_eq {c d : Nat × Word} {m k : Memory} (hc : c.2 ≠ 0#32) {lo : Nat}
    (hk : Memory.wfFrom lo (d :: k) = true)
    (h : ∀ n, Memory.read (c :: m) n = Memory.read (d :: k) n) :
    d.1 ≤ c.1 := by
  obtain ⟨-, hd, hv, htail⟩ := (Memory.wfFrom_cons _ _ _).1 hk
  by_contra hlt
  have hk' : Memory.wfFrom d.1 (d :: k) = true :=
    (Memory.wfFrom_cons _ _ _).2 ⟨Nat.le_refl _, hd, hv, htail⟩
  have hzero : Memory.read (d :: k) c.1 = 0#32 := Memory.read_below hk' (Nat.lt_of_not_le hlt)
  exact hc ((Memory.read_head c m).symm.trans ((h c.1).trans hzero))

/-- Two memories with the same first cell that read alike have tails that read alike. -/
theorem Memory.read_tail_eq {c : Nat × Word} {m k : Memory}
    (hm : Memory.wfFrom (c.1 + 1) m = true) (hk : Memory.wfFrom (c.1 + 1) k = true)
    (h : ∀ n, Memory.read (c :: m) n = Memory.read (c :: k) n) (n : Nat) : m.read n = k.read n := by
  by_cases hn : n = c.1
  · rw [Memory.read_below hm (by omega), Memory.read_below hk (by omega)]
  · rw [← Memory.read_tail hn m, ← Memory.read_tail hn k, h n]

theorem Memory.ext_of_wfFrom {m k : Memory} {lo : Nat} (hm : Memory.wfFrom lo m = true)
    (hk : Memory.wfFrom lo k = true) (h : ∀ n, m.read n = k.read n) : m = k := by
  induction m generalizing lo k with
  | nil => exact (Memory.eq_nil_of_read hk fun n => (h n).symm).symm
  | cons c m ih =>
    cases k with
    | nil => exact Memory.eq_nil_of_read hm h
    | cons d k =>
      obtain ⟨-, -, hc, hm'⟩ := (Memory.wfFrom_cons _ _ _).1 hm
      obtain ⟨-, -, hd, hk'⟩ := (Memory.wfFrom_cons _ _ _).1 hk
      have haddr : c.1 = d.1 :=
        Nat.le_antisymm (Memory.fst_le_of_read_eq hd hm fun n => (h n).symm)
          (Memory.fst_le_of_read_eq hc hk h)
      have hval : c.2 = d.2 := by
        rw [← Memory.read_head c m, h c.1, haddr, Memory.read_head]
      obtain rfl : c = d := Prod.ext haddr hval
      rw [ih hm' hk' (Memory.read_tail_eq hm' hk' h)]

/-! ### The fetch after a write -/

/-- The next step is a cycle whose fetch is in range, under a host with no turns to take. -/
structure ReadyToFetch (s : State) : Prop where
  running : s.state = .running
  turns : s.hostTurns = []
  pc : InByteRange s.pc

theorem ReadyToFetch.coreMoves {s : State} (h : ReadyToFetch s) : s.coreMoves = true :=
  coreMoves_of_quiet (by simp [State.hostMove, h.turns]) h.running

/-- Where no `out_valid` is to end, a step is the execute phase of the cell at `pc`, with nothing
around it. -/
theorem ReadyToFetch.step_eq {s : State} (h : ReadyToFetch s) (hv : s.outValid = false) {w : Word}
    (hw : s.mem.read s.pc.toNat = w) : step s = executeWord w { s with pc := s.pc + 1 } := by
  rw [step_eq_executeWord h.coreMoves h.pc, hw]
  simp [advancePc, setPc, State.atFetch, h.turns, hv]

/-- The state after a STORE to the next cell. -/
def storedNext (s : State) : State :=
  retire (writeCell (s.pc + 1) (readReg (regOf s.fetched.r1) s) (advancePc s.atFetch))

/-- The state after a CALL to itself. -/
def calledSelf (s : State) : State :=
  retire (setPc s.pc (writeCell s.pc (s.pc + 1) (advancePc s.atFetch)))

section SelfModifying

variable {s : State} (hs : ReadyToFetch s)
include hs

theorem step_storedNext (hop : s.fetched.op = 0x01) (hnext : InByteRange (s.pc + 1))
    (ha : readReg (regOf s.fetched.r2) s = s.pc + 1) : step s = .next (storedNext s) := by
  have ha' : readReg (regOf s.fetched.r2) (advancePc s.atFetch) = s.pc + 1 := ha
  have hin : inRange (readReg (regOf s.fetched.r2) (advancePc s.atFetch)) = true := by
    rw [ha', ← inByteRange_iff]
    exact hnext
  have hd := decodeFields_of_spelledBy (i := .store _ _) ⟨hop, rfl, rfl⟩
  rw [step_of_decode_ok hs.coreMoves hs.pc hd, exec_of_effect (.store hin), ha']
  rfl

theorem step_calledSelf (hop : s.fetched.op = 0x07) (ha : readReg (regOf s.fetched.r1) s = s.pc) :
    step s = .next (calledSelf s) := by
  have hsave : (advancePc s.atFetch).pc - 1 = s.pc := BitVec.add_sub_cancel ..
  have hd := decodeFields_of_spelledBy (i := .call _) ⟨hop, rfl⟩
  rw [step_of_decode_ok hs.coreMoves hs.pc hd, exec_of_effect .call, hsave, readReg_advancePc,
    atFetch_readReg, ha]
  rfl

/-- R72: the fetch after the STORE reads the word stored. -/
theorem step_of_storedNext (hm : s.mem.wf = true) (hnext : InByteRange (s.pc + 1)) :
    step (storedNext s) =
      executeWord (readReg (regOf s.fetched.r1) s) { storedNext s with pc := s.pc + 1 + 1 } := by
  have ht : ReadyToFetch (storedNext s) := ⟨hs.running, by simp [storedNext, hs.turns], hnext⟩
  exact ht.step_eq rfl (Memory.read_writeAt_same hm ((inByteRange_iff _).1 hnext) _)

/-- R180: the fetch after the CALL reads the number that the CALL saved in its own cell. -/
theorem step_of_calledSelf (hm : s.mem.wf = true) :
    step (calledSelf s) = executeWord (s.pc + 1) { calledSelf s with pc := s.pc + 1 } := by
  have ht : ReadyToFetch (calledSelf s) := ⟨hs.running, by simp [calledSelf, hs.turns], hs.pc⟩
  exact ht.step_eq rfl (Memory.read_writeAt_same hm ((inByteRange_iff _).1 hs.pc) _)

/-- The number of a cell after one in range is small enough to decode as `LOAD R0, [R0]`. -/
theorem decode_pc_succ : decode (s.pc + 1) = .ok (.load 0 0) := by
  have hin := (inByteRange_iff _).1 hs.pc
  have hlt := (inRange_iff _).1 hin
  refine decode_of_toNat_lt ?_
  rw [toNat_succ_of_inRange hin]
  omega

end SelfModifying

/-! ### The claims -/

/-- Settles O47: by induction on the list, the first cell being the first address that does not read
0. -/
theorem memoriesThatReadAlikeAreEqual : Obligations.MemoriesThatReadAlikeAreEqual := by
  unfold Obligations.MemoriesThatReadAlikeAreEqual
  exact fun m k hm hk h => Memory.ext_of_wfFrom hm hk h

/-- Settles O41: the state after the write is ready to fetch again, with the written cell at
`pc`. -/
theorem nextFetchSeesTheWrite : Obligations.NextFetchSeesTheWrite := by
  unfold Obligations.NextFetchSeesTheWrite
  refine ⟨fun s hinv hr hturns hp hop hnext ha => ?_, fun s hinv hr hturns hp hop ha => ?_⟩
  · have hs : ReadyToFetch s := ⟨hr, hturns, hp⟩
    have htwo : s.pc + 1 + 1 = s.pc + 2 := BitVec.add_assoc ..
    rw [← htwo]
    exact ⟨storedNext s, step_storedNext hs hop hnext ha, rfl,
      step_of_storedNext hs hinv.memory hnext⟩
  · have hs : ReadyToFetch s := ⟨hr, hturns, hp⟩
    have hnext := step_of_calledSelf hs hinv.memory
    rw [executeWord_ok (decode_pc_succ hs)] at hnext
    exact ⟨calledSelf s, step_calledSelf hs hop ha, rfl, hnext⟩

end Sys2Proof.Machine
